-- ==== Sys2Proof/Word.lean ====
section
/-! DEFINITION. The plain word types of the block: one abbreviation for each width that spec/00_scope.md rules R6
and R7 fix. -/

namespace Sys2Proof

/-- A command word, `cmd[35:0]` (30_encoding.md R70; `CMD_W` = 36). -/
abbrev CmdWord := BitVec 36

/-- The operand field `arg = cmd[31:0]` (30_encoding.md R70). -/
abbrev Arg := BitVec 32

/-- The opcode field `op = cmd[35:32]` (30_encoding.md R70). -/
abbrev Opcode := BitVec 4

/-- One bit for each of the four channels, bit k for channel k (00_scope.md R11; `EDGE_W` = `N_CH` = 4). -/
abbrev Nibble := BitVec 4

/-- A history register or a segment pattern (`HIST_W` = `SEG_W` = 8). -/
abbrev Byte := BitVec 8

/-- A value of the millisecond counter (`NOW_W` = 32). -/
abbrev Ms := BitVec 32

/-- A tone period (`PERIOD_W` = 16). -/
abbrev Period := BitVec 16

/-- The duration operand of TONE_PLAY, in milliseconds (`DUR_W` = 16). -/
abbrev Duration := BitVec 16

/-- One decimal digit. R25 and 93_implementation_defined.md U4 let a model type a digit as a number below 10, so
that the codes 10 to 15 cannot be written (DESIGN CHOICE, safe, assumption log 4). -/
abbrev Digit := Fin 10

/-- A button channel, k = 0..3 (00_scope.md R11). -/
abbrev Channel := Fin 4

end Sys2Proof
end

