-- ==== Sys2Proof/Syntax.lean ====
section
/-! DEFINITION. The commands of QCB-CMD version 1: one constructor of `Instr` for each row of
spec/opcode_table.json, and the source commands of the assembler (spec/30_encoding.md R79 to R81). -/

namespace Sys2Proof

/-- One command (30_encoding.md R75). Ignored bits are no part of a command (R73). -/
inductive Instr where
  /-- NOP, opcode 0x0 (40_tick_nop.md R93). -/
  | nop
  /-- TICK raw, opcode 0x1 (40_tick_nop.md R90). -/
  | tick (raw : Nibble)
  /-- EDGE_CLR, opcode 0x2 (42_edge_detector.md R114). -/
  | edgeClr
  /-- INC_INT, opcode 0x4 (43_bcd_counter.md R121). -/
  | incInt
  /-- DEC_INT, opcode 0x5 (43_bcd_counter.md R122). -/
  | decInt
  /-- INC_DEC, opcode 0x6 (43_bcd_counter.md R123). -/
  | incDec
  /-- DEC_DEC, opcode 0x7 (43_bcd_counter.md R124). -/
  | decDec
  /-- RENDER, opcode 0x8 (47_display_encoder.md R201). -/
  | render
  /-- DISP_OVERLAY, opcode 0x9 (47_display_encoder.md R202). -/
  | dispOverlay
  /-- DISP_BLANK, opcode 0xA (47_display_encoder.md R203). -/
  | dispBlank
  /-- TONE_PLAY period, dur, opcode 0xC (44_tone_timer.md R141). -/
  | tonePlay (period : Period) (dur : Duration)
  /-- TONE_POLL, opcode 0xD (44_tone_timer.md R143). -/
  | tonePoll
  /-- The reserved opcode 0x3 (30_encoding.md R76). -/
  | reserved3
  /-- The reserved opcode 0xB (30_encoding.md R76). -/
  | reservedB
  /-- The reserved opcode 0xE (30_encoding.md R76). -/
  | reservedE
  /-- The reserved opcode 0xF (30_encoding.md R76). -/
  | reservedF
deriving DecidableEq, Repr

/-- The three named tone presets (44_tone_timer.md R147). -/
inductive Preset where
  | inc
  | dec
  | err
deriving DecidableEq, Repr

/-- What one line of assembler text says, operands still plain numbers (30_encoding.md R79): the twelve commands,
the three preset pseudo-commands (R80) and the repeated tick (R81). -/
inductive SourceCmd where
  | nop
  | tick (raw : Nat)
  | edgeClr
  | incInt
  | decInt
  | incDec
  | decDec
  | render
  | dispOverlay
  | dispBlank
  | tonePlay (period dur : Nat)
  | tonePoll
  | tonePreset (p : Preset)
  | ticks (n raw : Nat)
deriving DecidableEq, Repr

end Sys2Proof
end

