-- ==== Sys2Proof/WellFormed.lean ====
section
/-! DEFINITION. Which terms stand for something the spec allows. The operands of `Instr` have the widths of the
encoding by their types; what is left to check is that the command is no reserved one (spec/30_encoding.md R76), and
that the plain numbers of an assembler line fit their fields (R71, R79). -/

namespace Sys2Proof

/-- The instruction is one of the twelve commands: "`op` values `0x3`, `0xB`, `0xE`, `0xF` select no command"
(30_encoding.md R76). -/
def Instr.wf : Instr → Bool
  | .nop => true
  | .tick _ => true
  | .edgeClr => true
  | .incInt => true
  | .decInt => true
  | .incDec => true
  | .decDec => true
  | .render => true
  | .dispOverlay => true
  | .dispBlank => true
  | .tonePlay _ _ => true
  | .tonePoll => true
  | .reserved3 => false
  | .reservedB => false
  | .reservedE => false
  | .reservedF => false

/-- Every operand of an assembler line fits its field: `raw` in 4 bits, `period` and `dur` in 16
(30_encoding.md R71, R79). -/
def SourceCmd.wf : SourceCmd → Bool
  | .tick raw => decide (raw < 2 ^ 4)
  | .tonePlay period dur => decide (period < 2 ^ 16) && decide (dur < 2 ^ 16)
  | .ticks _ raw => decide (raw < 2 ^ 4)
  | .nop => true
  | .edgeClr => true
  | .incInt => true
  | .decInt => true
  | .incDec => true
  | .decDec => true
  | .render => true
  | .dispOverlay => true
  | .dispBlank => true
  | .tonePoll => true
  | .tonePreset _ => true

end Sys2Proof
end

