-- ==== Sys2Proof/Decode.lean ====
section
/-! DEFINITION. The decoder and, after it, the encoder of the 36-bit command word (spec/30_encoding.md R70 to R76). -/

namespace Sys2Proof

/-! ### The fields (30_encoding.md R70, R71, R72) -/

/-- `op = cmd[35:32]`. -/
def opcodeOf (w : CmdWord) : Opcode := w.extractLsb' 32 4

/-- `arg = cmd[31:0]`. -/
def argOf (w : CmdWord) : Arg := w.extractLsb' 0 32

/-- Format T: `raw = arg[3:0]`. -/
def rawOf (arg : Arg) : Nibble := arg.extractLsb' 0 4

/-- Format P: `period = arg[31:16]`. -/
def periodOf (arg : Arg) : Period := arg.extractLsb' 16 16

/-- Format P: `dur = arg[15:0]`. -/
def durOf (arg : Arg) : Duration := arg.extractLsb' 0 16

/-! ### Decoding -/

/-- The command an opcode selects, with its operands read from `arg` (30_encoding.md R75). -/
def decodeOp (op : Fin 16) (arg : Arg) : Instr :=
  match op with
  | ⟨0x0, _⟩ => .nop
  | ⟨0x1, _⟩ => .tick (rawOf arg)
  | ⟨0x2, _⟩ => .edgeClr
  | ⟨0x3, _⟩ => .reserved3
  | ⟨0x4, _⟩ => .incInt
  | ⟨0x5, _⟩ => .decInt
  | ⟨0x6, _⟩ => .incDec
  | ⟨0x7, _⟩ => .decDec
  | ⟨0x8, _⟩ => .render
  | ⟨0x9, _⟩ => .dispOverlay
  | ⟨0xA, _⟩ => .dispBlank
  | ⟨0xB, _⟩ => .reservedB
  | ⟨0xC, _⟩ => .tonePlay (periodOf arg) (durOf arg)
  | ⟨0xD, _⟩ => .tonePoll
  | ⟨0xE, _⟩ => .reservedE
  | ⟨0xF, _⟩ => .reservedF
  | ⟨n + 16, h⟩ => absurd h (by omega)

/-- "A decoder reads `op = cmd[35:32]` and nothing else to select the command"; total on all 2^36 words
(30_encoding.md R74). -/
def decode (w : CmdWord) : Instr := decodeOp (opcodeOf w).toFin (argOf w)

/-- Why a number is no command word. -/
inductive DecodeReject where
  /-- It has a bit above bit 35: every command is one word of 36 bits (30_encoding.md R70). -/
  | widerThanACommandWord
deriving DecidableEq, Repr

/-- Decode a number of any size: a number below 2^36 is a command word, any other is rejected by name
(DESIGN CHOICE, safe, assumption log 13). -/
def decodeNumber (n : Nat) : Except DecodeReject Instr :=
  if n < 2 ^ 36 then .ok (decode (BitVec.ofNat 36 n)) else .error .widerThanACommandWord

/-- The instruction the decoder reads from the `nbits` low bits of `w` (the host's numbering: bit 0 is `cmd[0]`).
A command is one word, so the layout in memory is the word itself. -/
def decodeTableWord (nbits w : Nat) : Option Instr :=
  match decodeNumber (w % 2 ^ nbits) with
  | .ok i => some i
  | .error _ => none

/-! ### Encoding -/

/-- The opcode of each command (30_encoding.md R75). -/
def Instr.opcode : Instr → Opcode
  | .nop => 0x0#4
  | .tick _ => 0x1#4
  | .edgeClr => 0x2#4
  | .reserved3 => 0x3#4
  | .incInt => 0x4#4
  | .decInt => 0x5#4
  | .incDec => 0x6#4
  | .decDec => 0x7#4
  | .render => 0x8#4
  | .dispOverlay => 0x9#4
  | .dispBlank => 0xA#4
  | .reservedB => 0xB#4
  | .tonePlay _ _ => 0xC#4
  | .tonePoll => 0xD#4
  | .reservedE => 0xE#4
  | .reservedF => 0xF#4

/-- The operand field of each command; ignored bits are written as 0 (30_encoding.md R71, R73). -/
def Instr.operandField : Instr → Arg
  | .tick raw => raw.setWidth 32
  | .tonePlay period dur => period ++ dur
  | .nop => 0#32
  | .edgeClr => 0#32
  | .reserved3 => 0#32
  | .incInt => 0#32
  | .decInt => 0#32
  | .incDec => 0#32
  | .decDec => 0#32
  | .render => 0#32
  | .dispOverlay => 0#32
  | .dispBlank => 0#32
  | .reservedB => 0#32
  | .tonePoll => 0#32
  | .reservedE => 0#32
  | .reservedF => 0#32

/-- The canonical word of a command, `{op, arg}` (30_encoding.md R70, R73). -/
def encode (i : Instr) : CmdWord := i.opcode ++ i.operandField

/-- The bits of `arg` that a command with this opcode reads (30_encoding.md R71): `raw` for TICK, all of `arg` for
TONE_PLAY, none otherwise. -/
def usedArgBits (op : Opcode) : Arg :=
  if op = 0x1#4 then 0x0000000F#32 else if op = 0xC#4 then 0xFFFFFFFF#32 else 0x00000000#32

/-- The word with every ignored bit cleared (30_encoding.md R73). -/
def canonicalWord (w : CmdWord) : CmdWord := opcodeOf w ++ (argOf w &&& usedArgBits (opcodeOf w))

end Sys2Proof
end

