-- ==== Sys2Proof/Config.lean ====
section
/-! DEFINITION. The parameters of the block: those spec/00_scope.md rule R6 fixes, as constants with their values;
those rule R7 leaves OPEN, and the bytes rule R30 leaves unspecified, as uninterpreted constants (no body, so that a
statement about them holds for every value). -/

namespace Sys2Proof.Config

/-! ### Fixed parameters (00_scope.md R6, R7) -/

/-- `N_CH`, the number of button channels. -/
def nCh : Nat := 4
/-- `HIST_W`, the width of a history register in bits. -/
def histW : Nat := 8
/-- `EDGE_W`, the width of the EdgeSet in bits. -/
def edgeW : Nat := 4
/-- `DIGIT_MAX`, the largest digit value. -/
def digitMax : Nat := 9
/-- `NOW_W`, the width of the tick counter in bits. -/
def nowW : Nat := 32
/-- `TICK_MS`, what one TICK adds to the tick counter. -/
def tickMs : Ms := 10#32
/-- `DISP_N`, the number of bytes of the display buffer. -/
def dispN : Nat := 2
/-- `SEG_W`, the width of a segment pattern in bits. -/
def segW : Nat := 8
/-- `LUT_N`, the number of entries of the segment table. -/
def lutN : Nat := 10
/-- `DUR_INC`, the duration of the "increment" preset in milliseconds. -/
def durInc : Duration := 50#16
/-- `DUR_DEC`, the duration of the "decrement" preset in milliseconds. -/
def durDec : Duration := 70#16
/-- `DUR_ERR`, the duration of the "error" preset in milliseconds. -/
def durErr : Duration := 80#16
/-- `FLASH_PHASE_MS` (reference host), the length of one overlay phase. -/
def flashPhaseMs : Ms := 100#32
/-- `FLASH_CYCLES` (reference host), the ON/OFF cycles of one flash. -/
def flashCycles : Nat := 3
/-- `DIGIT_W`, the storage width of one digit in bits. -/
def digitW : Nat := 4
/-- `PERIOD_W`, the width of a tone period in bits. -/
def periodW : Nat := 16
/-- `DUR_W`, the width of the duration operand in bits. -/
def durW : Nat := 16
/-- `CMD_W`, the width of a command word in bits. -/
def cmdW : Nat := 36

/-! ### Open parameters (00_scope.md R7; 93_implementation_defined.md U10) -/

/-- `SEG_LUT[0..9]`, the ten digit patterns: OPEN, no constraint (47_display_encoder.md R200;
DESIGN CHOICE, safe, assumption log 2). -/
opaque segLut : Digit → Byte

/-- `SEG_OVERLAY`, the error glyph: OPEN (47_display_encoder.md R204; DESIGN CHOICE, safe, assumption log 2). -/
opaque segOverlay : Byte

/-- `SEG_BLANK`, the blank pattern: OPEN (47_display_encoder.md R204; DESIGN CHOICE, safe, assumption log 2). -/
opaque segBlank : Byte

/-- The three preset periods with the one constraint the spec gives, `PER_INC < PER_DEC < PER_ERR`
(44_tone_timer.md R148). The default values only show that the constraint can be met. -/
structure PresetPeriods where
  perInc : Period := 0#16
  perDec : Period := 1#16
  perErr : Period := 2#16
  inc_lt_dec : perInc < perDec := by decide
  dec_lt_err : perDec < perErr := by decide
deriving Inhabited

/-- `PER_INC`, `PER_DEC`, `PER_ERR`: OPEN up to their order (DESIGN CHOICE, safe, assumption log 3). -/
opaque presetPeriods : PresetPeriods

/-- `PER_INC`. -/
def perInc : Period := presetPeriods.perInc
/-- `PER_DEC`. -/
def perDec : Period := presetPeriods.perDec
/-- `PER_ERR`. -/
def perErr : Period := presetPeriods.perErr

/-- What byte `a` of `DISP` holds from the `n`-th reset until a display command writes it: a free value
(10_state.md R30, 93_implementation_defined.md U3, "two fixed but unknown bytes, the same at every sample until
written"; DESIGN CHOICE, safe, assumption log 1). -/
opaque dispAtReset : Nat → Nat → Byte

end Sys2Proof.Config
end

