-- ==== Sys2Proof/Machine/State.lean ====
section
/-! DEFINITION. The state of the machine as plain data: the block's registers (spec/10_state.md R20), the reference
host's state (45_error_flash_overlay_host.md R160, 46_dispatcher_host.md R180), the tick source (60_exceptions.md
R224), what the outside world presents, and the state after reset. -/

namespace Sys2Proof.Machine

/-! ### Why a step can stop -/

/-- The two memories of the block (20_memory.md R50). -/
inductive Space where
  /-- The display buffer, addresses 0 and 1, read and written. -/
  | disp
  /-- The segment table, addresses 0 to 9, read only. -/
  | lut
deriving DecidableEq, Repr

/-- Reasons a step can fault. The source defines none (60_exceptions.md R220). -/
inductive Fault where
  /-- Raised by `memRead` and `memWrite` for an address the space does not have (20_memory.md R50, R52: never return
  a value there; DESIGN CHOICE, assumption log 14). Safe. No command presents such an address. -/
  | noSuchAddress (space : Space) (addr : Nat)
deriving DecidableEq, Repr

/-- Reasons a step can be refused. -/
inductive Refusal where
  /-- Raised by the dispatcher's arm of an instruction that has no meaning yet. Safe. No arm raises it. -/
  | notModelled (mnemonic : String)
  /-- `raise IllegalCommand(op)`: raised for a command word with a reserved opcode; no state is written and the
  recorded value is `op` (60_exceptions.md R221, R222). Safe. -/
  | illegalCommand (op : Opcode)
deriving DecidableEq, Repr

/-! ### The parts of the state -/

/-- The four history registers `hist[0..3]` (10_state.md R21). -/
structure Histories where
  ch0 : Byte
  ch1 : Byte
  ch2 : Byte
  ch3 : Byte
deriving DecidableEq, Repr

/-- The bytes of `DISP` that differ from what an unlisted address reads as, addresses strictly rising. -/
abbrev Memory := List Host.Cell

/-- The phase of the error-flash overlay (45_error_flash_overlay_host.md R160). -/
inductive Phase where
  | none
  | on
  | off
deriving DecidableEq, Repr

/-- The Dispatcher's state, `S_IDLE` to `S_UPDATE` (46_dispatcher_host.md R180). -/
inductive DState where
  | idle
  | incInt
  | decInt
  | incDec
  | decDec
  | errorFlash
  | update
deriving DecidableEq, Repr

/-- One operation of the reference host's program, the unit between which a TICK may stand (20_memory.md R57;
DESIGN CHOICE, unsafe, assumption log 8). -/
inductive HostOp where
  /-- Boot step 1: `dstate = S_IDLE` and `phase = NONE` (70_reset_and_hazards.md R243). -/
  | setOwnState
  /-- Issue one block command. -/
  | issue (i : Instr)
  /-- Boot step 3: enable the tick source (70_reset_and_hazards.md R243), in an open critical section too (DESIGN
  CHOICE, unsafe, assumption log 17). -/
  | enableTicks
  /-- `overlay.start()` (45_error_flash_overlay_host.md R162). -/
  | overlayStart
  /-- `overlay.poll()` (45_error_flash_overlay_host.md R163). -/
  | overlayPoll
  /-- The deadline test of a poll in ON, after its DISP_OVERLAY (45_error_flash_overlay_host.md R164). -/
  | overlayOnCheck
  /-- The deadline test of a poll in OFF, after its DISP_BLANK (45_error_flash_overlay_host.md R165). -/
  | overlayOffCheck
  /-- `phase <- NONE` after the last RENDER of a flash (45_error_flash_overlay_host.md R165). -/
  | endFlash
  /-- `dispatcher.step()` (46_dispatcher_host.md R181). -/
  | dispatch
  /-- `dstate <- d`, after the commands of a Dispatcher step. -/
  | goto (d : DState)
deriving DecidableEq, Repr

/-- The reference host: its state (R160, R180) and, the model's own, what is left of its program's current pass. -/
structure HostState where
  phase : Phase
  deadline : Ms
  cycles : Fin 4
  dstate : DState
  todo : List HostOp
deriving DecidableEq, Repr

/-- The tick source as the host can suppress it (20_memory.md R59, 60_exceptions.md R224): whether it is enabled,
and the raw samples of the firings deferred meanwhile, oldest first. One flag stands for `not yet enabled at boot` and
for `suppressed in a critical section` (DESIGN CHOICE, unsafe, assumption log 17). -/
structure TickSource where
  enabled : Bool
  held : List Nibble
deriving DecidableEq, Repr

/-- What the main agent does at one instant. -/
inductive MainAct where
  /-- It presents this word on `cmd` (10_state.md R32). -/
  | command (w : CmdWord)
  /-- The reference host does its next operation. -/
  | host
  /-- It opens a critical section: the tick source is suppressed (20_memory.md R59; one flag, not counted: DESIGN
  CHOICE, unsafe, assumption log 17). -/
  | suppressTicks
  /-- It closes a critical section (20_memory.md R59): the tick source is enabled, whatever sections were opened and
  whether or not boot step 3 is done (DESIGN CHOICE, unsafe, assumption log 17). -/
  | resumeTicks
deriving DecidableEq, Repr

/-- What the outside world presents at one instant. -/
inductive Instant where
  /-- The reset event, which stands beside the command stream (70_reset_and_hazards.md R240). -/
  | reset
  /-- A firing of the tick source with its raw sample, an act of the main agent, both, or nothing
  (20_memory.md R57, R58; "no command presented", 40_tick_nop.md R93). -/
  | present (fire : Option Nibble) (act : Option MainAct)
deriving DecidableEq, Repr

/-- The state of the machine. -/
structure State where
  /-- `hist[0..3]`, the last 8 raw samples of each channel, newest in bit 0 (R21). -/
  hist : Histories
  /-- `filt`, the debounced levels, 1 = released (R22). -/
  filt : Nibble
  /-- `prev`, `filt` as it was at the end of the previous TICK (R23). -/
  prev : Nibble
  /-- `edge`, the EdgeSet (R24). -/
  edge : Nibble
  /-- `idig`, the integer digit (R25). -/
  idig : Digit
  /-- `ddig`, the decimal digit (R25). -/
  ddig : Digit
  /-- `now`, the tick counter in milliseconds (R26). -/
  now : Ms
  /-- `t_act`, a tone is playing (R27). -/
  tAct : Bool
  /-- `t_end`, the tone's deadline (R28). -/
  tEnd : Ms
  /-- `t_per`, the tone's period (R29). -/
  tPer : Period
  /-- `DISP`, the display buffer (R30). -/
  disp : Memory
  /-- The model's own: how many reset events have happened; it selects the free bytes of `DISP`
  (DESIGN CHOICE, safe, assumption log 1). -/
  resets : Nat
  /-- The reference host (DESIGN CHOICE, unsafe, assumption log 8). -/
  host : HostState
  /-- The tick source (DESIGN CHOICE, unsafe, assumption log 6). -/
  ticks : TickSource
  /-- The model's own: what the outside world presents, in arrival order (20_memory.md R56;
  DESIGN CHOICE, safe, assumption log 5). -/
  input : List Instant
deriving DecidableEq, Repr

/-! ### Reset -/

/-- The boot sequence of 70_reset_and_hazards.md R243, in its order. -/
def bootSequence : List HostOp := [.setOwnState, .issue .render, .enableTicks]

/-- The reference host at reset: `phase = NONE`, `dstate = S_IDLE` (70_reset_and_hazards.md R241), about to boot.
The spec gives `deadline` and `cycles_completed` no initial value (DESIGN CHOICE, unsafe, assumption log 9). -/
def HostState.reset : HostState :=
  { phase := .none, deadline := 0#32, cycles := 0, dstate := .idle, todo := bootSequence }

/-- The tick source at reset: neither boot step 3 nor the close of a critical section has enabled it yet (DESIGN
CHOICE, unsafe, assumption log 7), no firing is deferred. -/
def TickSource.reset : TickSource := { enabled := false, held := [] }

/-- The machine after reset: the reset column of 10_state.md R20. `DISP` lists nothing, so both its bytes read as
the free value of R30. -/
def State.reset : State :=
  { hist := { ch0 := 0xFF#8, ch1 := 0xFF#8, ch2 := 0xFF#8, ch3 := 0xFF#8 }
    filt := 0b1111#4
    prev := 0b1111#4
    edge := 0b0000#4
    idig := 0
    ddig := 0
    now := 0#32
    tAct := false
    tEnd := 0#32
    tPer := 0#16
    disp := []
    resets := 0
    host := HostState.reset
    ticks := TickSource.reset
    input := [] }

end Sys2Proof.Machine
end

