-- ==== Sys2Proof/Machine/Ops.lean ====
section
/-! DEFINITION. The named operations over the state: one update for each register group, the history file, the two
memories of spec/20_memory.md with the primitives of 00_scope.md R9, the one refusal of 60_exceptions.md R221, and
the reset event of 70_reset_and_hazards.md R240. -/

namespace Sys2Proof.Machine

/-- The outcome of a step of this machine. -/
abbrev Outcome := Host.Outcome State Fault Refusal

/-! ### Updates of the state -/

/-- Write `hist`. -/
def State.setHist (s : State) (v : Histories) : State := { s with hist := v }
/-- Write `filt`. -/
def State.setFilt (s : State) (v : Nibble) : State := { s with filt := v }
/-- Write `prev`. -/
def State.setPrev (s : State) (v : Nibble) : State := { s with prev := v }
/-- Write `edge`. -/
def State.setEdge (s : State) (v : Nibble) : State := { s with edge := v }
/-- Write both digits. -/
def State.setDigits (s : State) (i d : Digit) : State := { s with idig := i, ddig := d }
/-- Write `now`. -/
def State.setNow (s : State) (v : Ms) : State := { s with now := v }
/-- Write `t_act`. -/
def State.setToneActive (s : State) (v : Bool) : State := { s with tAct := v }
/-- Write the whole tone slot: `t_act`, `t_end`, `t_per`. -/
def State.setTone (s : State) (act : Bool) (stop : Ms) (per : Period) : State :=
  { s with tAct := act, tEnd := stop, tPer := per }
/-- Write the memory that holds `DISP`. -/
def State.setDisp (s : State) (m : Memory) : State := { s with disp := m }
/-- Write the reference host's state. -/
def State.setHost (s : State) (h : HostState) : State := { s with host := h }
/-- Write the tick source. -/
def State.setTicks (s : State) (t : TickSource) : State := { s with ticks := t }
/-- Write what is still to be presented. -/
def State.setInput (s : State) (l : List Instant) : State := { s with input := l }

/-! ### Single bits and the history file -/

/-- `v[k] <- b` (00_scope.md R9). -/
def setBit (v : Nibble) (k : Channel) (b : Bool) : Nibble :=
  if b then v ||| (1#4 <<< k.val) else v &&& ~~~(1#4 <<< k.val)

/-- `hist[k]`. -/
def Histories.get (h : Histories) (k : Channel) : Byte :=
  match k with
  | 0 => h.ch0
  | 1 => h.ch1
  | 2 => h.ch2
  | 3 => h.ch3

/-- `hist[k] <- v`. -/
def Histories.set (h : Histories) (k : Channel) (v : Byte) : Histories :=
  match k with
  | 0 => { h with ch0 := v }
  | 1 => { h with ch1 := v }
  | 2 => { h with ch2 := v }
  | 3 => { h with ch3 := v }

/-! ### The display buffer as a canonical list -/

/-- What an unlisted address of `DISP` reads as after the `n`-th reset: the free byte of 10_state.md R30. -/
def Memory.unlisted (n a : Nat) : Byte := Config.dispAtReset n a

/-- Read one byte. -/
def Memory.read (n : Nat) (m : Memory) (a : Nat) : Byte :=
  match m with
  | [] => Memory.unlisted n a
  | (b, v) :: rest => if b = a then v else Memory.read n rest a

/-- List a byte, keeping the addresses strictly rising. -/
def Memory.insert (m : Memory) (a : Nat) (v : Byte) : Memory :=
  match m with
  | [] => [(a, v)]
  | (b, w) :: rest =>
    if a < b then (a, v) :: (b, w) :: rest
    else if a = b then (a, v) :: rest
    else (b, w) :: Memory.insert rest a v

/-- Unlist a byte. -/
def Memory.erase (m : Memory) (a : Nat) : Memory :=
  match m with
  | [] => []
  | (b, w) :: rest => if b = a then Memory.erase rest a else (b, w) :: Memory.erase rest a

/-- Write one byte. Writing what an unlisted address reads as removes the entry, so that equal memories are equal
lists. -/
def Memory.write (n : Nat) (m : Memory) (a : Nat) (v : Byte) : Memory :=
  if v = Memory.unlisted n a then Memory.erase m a else Memory.insert m a v

/-- The addresses rise strictly, starting at `lo` or above. -/
def Memory.risesFrom (lo : Nat) (m : Memory) : Bool :=
  match m with
  | [] => true
  | (a, _) :: rest => decide (lo ≤ a) && Memory.risesFrom (a + 1) rest

/-- The canonical form: addresses strictly rising and below `DISP_N`, and no entry equal to what an unlisted address
reads as. -/
def Memory.wf (n : Nat) (m : Memory) : Bool :=
  Memory.risesFrom 0 m &&
    m.all (fun c => decide (c.1 < Config.dispN) && decide (c.2 ≠ Memory.unlisted n c.1))

/-! ### MemRead and MemWrite (00_scope.md R9, 20_memory.md R50, R52) -/

/-- `MemRead(space, addr, 1)`. -/
def memRead (sp : Space) (a : Nat) (s : State) : Except Fault Byte :=
  match sp with
  | .disp => if a < Config.dispN then .ok (Memory.read s.resets s.disp a) else .error (.noSuchAddress .disp a)
  | .lut => if h : a < 10 then .ok (Config.segLut ⟨a, h⟩) else .error (.noSuchAddress .lut a)

/-- `MemWrite(DISP, addr, 1, v)`: `DISP` is the only space a command writes. -/
def memWrite (a : Nat) (v : Byte) (s : State) : Except Fault State :=
  if a < Config.dispN then .ok (s.setDisp (Memory.write s.resets s.disp a v)) else .error (.noSuchAddress .disp a)

/-- Write both bytes of `DISP`, position 0 (integer digit) first (47_display_encoder.md R201 to R203). -/
def writeDisplay (b0 b1 : Byte) (s : State) : Except Fault State :=
  match memWrite 0 b0 s with
  | .error f => .error f
  | .ok s' => memWrite 1 b1 s'

/-- End a command whose memory accesses may have faulted. -/
def finish (r : Except Fault State) : Outcome :=
  match r with
  | .ok s => .next s
  | .error f => .fault f

/-! ### Exceptions and reset -/

/-- `raise IllegalCommand(op)` (60_exceptions.md R221): the one refusal. The block "has nowhere to trap to" and no
command raises any exception (R220), so this is the whole of taking an exception, and there is no return from one
(R228). -/
def raiseIllegalCommand (op : Opcode) (_s : State) : Outcome := .refused (.illegalCommand op)

/-- The reset event: every block register and the host's state get their reset values, nothing persists, and the
bytes of `DISP` are unspecified anew (70_reset_and_hazards.md R240 to R242; DESIGN CHOICE, unsafe, assumption log
10). What is still to be
presented is not the block's and stays. -/
def resetEvent (s : State) : State :=
  { State.reset with resets := s.resets + 1, input := s.input }

end Sys2Proof.Machine
end

