-- ==== Sys2Proof/Machine/Counter.lean ====
section
/-! DEFINITION. The saturating two-digit BCD counter (spec/43_bcd_counter.md). -/

namespace Sys2Proof.Machine

/-- One digit up, saturating at 9 (43_bcd_counter.md R121). -/
def digitUp (d : Digit) : Digit := if h : d.val < 9 then ⟨d.val + 1, by omega⟩ else d

/-- One digit down, saturating at 0 (43_bcd_counter.md R122). -/
def digitDown (d : Digit) : Digit := if h : 0 < d.val then ⟨d.val - 1, by omega⟩ else d

/-- INC_INT (43_bcd_counter.md R121). -/
def execIncInt (s : State) : Outcome := .next (s.setDigits (digitUp s.idig) s.ddig)

/-- DEC_INT (43_bcd_counter.md R122). -/
def execDecInt (s : State) : Outcome := .next (s.setDigits (digitDown s.idig) s.ddig)

/-- INC_DEC (43_bcd_counter.md R123): at 9 the decimal digit becomes 0 and the carry is R121 applied, which does
nothing at `idig = 9` (R125). -/
def execIncDec (s : State) : Outcome :=
  .next (if s.ddig.val < 9 then s.setDigits s.idig (digitUp s.ddig) else s.setDigits (digitUp s.idig) 0)

/-- DEC_DEC (43_bcd_counter.md R124): at 0 the decimal digit becomes 9 and the borrow is R122 applied, which does
nothing at `idig = 0` (R125). -/
def execDecDec (s : State) : Outcome :=
  .next (if 0 < s.ddig.val then s.setDigits s.idig (digitDown s.ddig) else s.setDigits (digitDown s.idig) 9)

end Sys2Proof.Machine
end

