-- ==== Sys2Proof/Machine/Display.lean ====
section
/-! DEFINITION. The seven-segment display encoder (spec/47_display_encoder.md). -/

namespace Sys2Proof.Machine

/-- RENDER (47_display_encoder.md R201): `DISP[0] <- SEG_LUT[idig]`, `DISP[1] <- SEG_LUT[ddig]`. -/
def execRender (s : State) : Outcome :=
  match memRead .lut s.idig.val s, memRead .lut s.ddig.val s with
  | .ok b0, .ok b1 => finish (writeDisplay b0 b1 s)
  | .error f, _ => .fault f
  | _, .error f => .fault f

/-- DISP_OVERLAY (47_display_encoder.md R202). -/
def execDispOverlay (s : State) : Outcome := finish (writeDisplay Config.segOverlay Config.segOverlay s)

/-- DISP_BLANK (47_display_encoder.md R203). -/
def execDispBlank (s : State) : Outcome := finish (writeDisplay Config.segBlank Config.segBlank s)

end Sys2Proof.Machine
end

