-- ==== Sys2Proof/Machine/Reserved.lean ====
section
/-! DEFINITION. The four reserved opcodes (spec/30_encoding.md R76): each raises IllegalCommand with its own opcode
(60_exceptions.md R221). -/

namespace Sys2Proof.Machine

/-- Opcode 0x3. -/
def execReserved3 (s : State) : Outcome := raiseIllegalCommand 0x3#4 s

/-- Opcode 0xB. -/
def execReservedB (s : State) : Outcome := raiseIllegalCommand 0xB#4 s

/-- Opcode 0xE. -/
def execReservedE (s : State) : Outcome := raiseIllegalCommand 0xE#4 s

/-- Opcode 0xF. -/
def execReservedF (s : State) : Outcome := raiseIllegalCommand 0xF#4 s

end Sys2Proof.Machine
end

