-- ==== Sys2Proof/Machine/Flags.lean ====
section
/-! DEFINITION. The flag-like values of the block (spec/10_state.md R39): the edge bits and the deadline test that
clears `t_act`, with the filtered level the edges come from. The block has no condition codes. -/

namespace Sys2Proof.Machine

/-- The history after one sample: `{hist[k][6:0], s}` (41_debounce_filter.md R101). -/
def shiftSample (h : Byte) (sample : Bool) : Byte := (h <<< 1) ||| (if sample then 1#8 else 0#8)

/-- The filtered bit after the shift: 0 on all-zero, 1 on all-one, held otherwise (41_debounce_filter.md R102). -/
def filteredBit (h : Byte) (old : Bool) : Bool :=
  if h = 0x00#8 then false else if h = 0xFF#8 then true else old

/-- `new_edges = prev & ~filt` (42_edge_detector.md R111). -/
def newEdges (prev filt : Nibble) : Nibble := prev &&& ~~~filt

/-- `reached(now, d) := ((now - d) mod 2^32) < 2^31` (00_scope.md R10). -/
def reached (now d : Ms) : Bool := decide ((now - d).toNat < 2 ^ 31)

end Sys2Proof.Machine
end

