-- ==== Sys2Proof/Machine/Operands.lean ====
section
/-! DEFINITION. Operand assembly: how a command uses its operand fields (spec/30_encoding.md R72). "No operand is
signed, shifted or scaled." -/

namespace Sys2Proof.Machine

/-- `raw[k]`, the sample of channel k (00_scope.md R11, R12). -/
def rawBit (raw : Nibble) (k : Channel) : Bool := raw.getLsbD k.val

/-- `zext_32(dur)`, the duration in milliseconds. -/
def durationMs (dur : Duration) : Ms := dur.setWidth 32

end Sys2Proof.Machine
end

