-- ==== Sys2Proof/Machine/Tick.lean ====
section
/-! DEFINITION. TICK and NOP (spec/40_tick_nop.md), with the micro-operations DEB_STEP (41_debounce_filter.md R100)
and EDGE_STEP (42_edge_detector.md R110), and EDGE_CLR (42_edge_detector.md R114). -/

namespace Sys2Proof.Machine

/-- `now <- (now + 10) mod 2^32` (40_tick_nop.md R91). -/
def advanceNow (s : State) : State := s.setNow (s.now + Config.tickMs)

/-- `DEB_STEP(k, s)` (41_debounce_filter.md R100): shift the sample in, then update the filtered bit from the new
history. -/
def debStep (k : Channel) (sample : Bool) (s : State) : State :=
  (s.setHist (s.hist.set k (shiftSample (s.hist.get k) sample))).setFilt
    (setBit s.filt k (filteredBit (shiftSample (s.hist.get k) sample) (s.filt.getLsbD k.val)))

/-- The debounce step of all four channels, k = 0 first (40_tick_nop.md R90 step 2). -/
def debounceAll (raw : Nibble) (s : State) : State :=
  debStep 3 (rawBit raw 3) (debStep 2 (rawBit raw 2) (debStep 1 (rawBit raw 1) (debStep 0 (rawBit raw 0) s)))

/-- `EDGE_STEP()` (42_edge_detector.md R110): accumulate the falling edges, then latch. -/
def edgeStep (s : State) : State := (s.setEdge (s.edge ||| newEdges s.prev s.filt)).setPrev s.filt

/-- NOP (40_tick_nop.md R93). -/
def execNop (s : State) : Outcome := .next s

/-- TICK raw (40_tick_nop.md R90): counter, debounce, edges. -/
def execTick (raw : Nibble) (s : State) : Outcome := .next (edgeStep (debounceAll raw (advanceNow s)))

/-- EDGE_CLR (42_edge_detector.md R114). -/
def execEdgeClr (s : State) : Outcome := .next (s.setEdge 0b0000#4)

end Sys2Proof.Machine
end

