-- ==== Sys2Proof/Machine/Tone.lean ====
section
/-! DEFINITION. The non-blocking tone timer (spec/44_tone_timer.md). -/

namespace Sys2Proof.Machine

/-- TONE_PLAY period, dur (44_tone_timer.md R141). -/
def execTonePlay (period : Period) (dur : Duration) (s : State) : Outcome :=
  .next (s.setTone true (s.now + durationMs dur) period)

/-- TONE_POLL (44_tone_timer.md R143): `t_per` and `t_end` keep their values. -/
def execTonePoll (s : State) : Outcome :=
  .next (if s.tAct && reached s.now s.tEnd then s.setToneActive false else s)

end Sys2Proof.Machine
end

