-- ==== Sys2Proof/Machine/Dispatch.lean ====
section
/-! DEFINITION. One arm per constructor of `Instr` (spec/30_encoding.md R75). -/

namespace Sys2Proof.Machine

def exec (i : Instr) (s : State) : Host.Outcome State Fault Refusal :=
  match i with
  | .nop => Sys2Proof.Machine.execNop s
  | .tick raw => Sys2Proof.Machine.execTick raw s
  | .edgeClr => Sys2Proof.Machine.execEdgeClr s
  | .incInt => Sys2Proof.Machine.execIncInt s
  | .decInt => Sys2Proof.Machine.execDecInt s
  | .incDec => Sys2Proof.Machine.execIncDec s
  | .decDec => Sys2Proof.Machine.execDecDec s
  | .render => Sys2Proof.Machine.execRender s
  | .dispOverlay => Sys2Proof.Machine.execDispOverlay s
  | .dispBlank => Sys2Proof.Machine.execDispBlank s
  | .tonePlay period dur => Sys2Proof.Machine.execTonePlay period dur s
  | .tonePoll => Sys2Proof.Machine.execTonePoll s
  | .reserved3 => Sys2Proof.Machine.execReserved3 s
  | .reservedB => Sys2Proof.Machine.execReservedB s
  | .reservedE => Sys2Proof.Machine.execReservedE s
  | .reservedF => Sys2Proof.Machine.execReservedF s

end Sys2Proof.Machine
end

