-- ==== Sys2Proof/Machine/Assembler.lean ====
section
/-! DEFINITION. The assembler of spec/30_encoding.md R79 to R81: source commands to commands, and lines of text to
source commands. Text is a list of characters. What R79 leaves open (blanks, letter case, what is an error) is in
assumption log 11 (DESIGN CHOICE, unsafe for claims about texts). -/

namespace Sys2Proof.Machine

/-! ### Source commands to commands -/

/-- The pseudo-commands TONE_INC, TONE_DEC, TONE_ERR (30_encoding.md R80, 44_tone_timer.md R147). -/
def presetInstr (p : Preset) : Instr :=
  match p with
  | .inc => .tonePlay Config.perInc Config.durInc
  | .dec => .tonePlay Config.perDec Config.durDec
  | .err => .tonePlay Config.perErr Config.durErr

/-- The commands a source command stands for (30_encoding.md R79, R80, R81). -/
def expand (c : SourceCmd) : List Instr :=
  match c with
  | .nop => [.nop]
  | .tick raw => [.tick (BitVec.ofNat 4 raw)]
  | .edgeClr => [.edgeClr]
  | .incInt => [.incInt]
  | .decInt => [.decInt]
  | .incDec => [.incDec]
  | .decDec => [.decDec]
  | .render => [.render]
  | .dispOverlay => [.dispOverlay]
  | .dispBlank => [.dispBlank]
  | .tonePlay period dur => [.tonePlay (BitVec.ofNat 16 period) (BitVec.ofNat 16 dur)]
  | .tonePoll => [.tonePoll]
  | .tonePreset p => [presetInstr p]
  | .ticks n raw => List.replicate n (.tick (BitVec.ofNat 4 raw))

/-! ### Text to source commands -/

/-- Why a line is no command. -/
inductive AsmError where
  /-- The mnemonic is none of R75, R80, R81. -/
  | unknownMnemonic
  /-- The mnemonic takes another number of operands (R79). -/
  | wrongOperandCount
  /-- An operand is neither a number nor a parameter name (R79). -/
  | badOperand
  /-- An operand does not fit its field (R71). -/
  | operandTooWide
deriving DecidableEq, Repr

/-- The value of a digit in a base up to 16. -/
def digitValue (base : Nat) (c : Char) : Option Nat :=
  let v :=
    if '0' ≤ c ∧ c ≤ '9' then c.toNat - '0'.toNat
    else if 'A' ≤ c ∧ c ≤ 'F' then c.toNat - 'A'.toNat + 10
    else if 'a' ≤ c ∧ c ≤ 'f' then c.toNat - 'a'.toNat + 10
    else 16
  if v < base then some v else none

/-- Digits after the value `acc`, most significant first. -/
def readDigits (base acc : Nat) (cs : List Char) : Option Nat :=
  match cs with
  | [] => some acc
  | c :: rest =>
    match digitValue base c with
    | none => none
    | some v => readDigits base (acc * base + v) rest

/-- "Numbers are decimal, `0x` hexadecimal or `0b` binary" (30_encoding.md R79). -/
def readNumber (cs : List Char) : Option Nat :=
  match cs with
  | [] => none
  | '0' :: 'x' :: [] => none
  | '0' :: 'b' :: [] => none
  | '0' :: 'x' :: rest => readDigits 16 0 rest
  | '0' :: 'b' :: rest => readDigits 2 0 rest
  | _ => readDigits 10 0 cs

/-- "Parameter names (`PER_INC` and so on) may stand where a number is expected" (30_encoding.md R79): the scalar
parameters of 00_scope.md R6 and R7. -/
def parameters : List (String × Nat) :=
  [("PER_INC", Config.perInc.toNat), ("PER_DEC", Config.perDec.toNat), ("PER_ERR", Config.perErr.toNat),
   ("DUR_INC", Config.durInc.toNat), ("DUR_DEC", Config.durDec.toNat), ("DUR_ERR", Config.durErr.toNat),
   ("SEG_OVERLAY", Config.segOverlay.toNat), ("SEG_BLANK", Config.segBlank.toNat),
   ("N_CH", Config.nCh), ("HIST_W", Config.histW), ("EDGE_W", Config.edgeW), ("DIGIT_MAX", Config.digitMax),
   ("NOW_W", Config.nowW), ("TICK_MS", Config.tickMs.toNat), ("DISP_N", Config.dispN), ("SEG_W", Config.segW),
   ("LUT_N", Config.lutN), ("FLASH_PHASE_MS", Config.flashPhaseMs.toNat), ("FLASH_CYCLES", Config.flashCycles),
   ("DIGIT_W", Config.digitW), ("PERIOD_W", Config.periodW), ("DUR_W", Config.durW), ("CMD_W", Config.cmdW)]

/-- An operand: a number, or the name of a parameter. -/
def readOperand (cs : List Char) : Option Nat :=
  match readNumber cs with
  | some n => some n
  | none => (parameters.find? (fun p => p.1.toList == cs)).map (fun p => p.2)

/-- A blank or a tab. -/
def isBlank (c : Char) : Bool := c == ' ' || c == '\t'

/-- A line without the blanks at both its ends. -/
def trim (cs : List Char) : List Char := ((cs.dropWhile isBlank).reverse.dropWhile isBlank).reverse

/-- Cut a list of characters at every `sep`. -/
def cutAt (sep : Char) (cs : List Char) : List (List Char) :=
  match cs with
  | [] => [[]]
  | c :: rest =>
    match cutAt sep rest with
    | [] => [[c]]
    | first :: others => if c == sep then [] :: first :: others else (c :: first) :: others

/-- The operands of a line, "separated by a comma" (30_encoding.md R79). -/
def readOperands (cs : List Char) : Option (List Nat) :=
  if trim cs = [] then some [] else (cutAt ',' cs).mapM (fun o => readOperand (trim o))

/-- A command without operands. -/
def plainCmd (c : SourceCmd) (ops : List Nat) : Except AsmError SourceCmd :=
  match ops with
  | [] => .ok c
  | _ => .error .wrongOperandCount

/-- A command from its mnemonic and its operands (30_encoding.md R75, R79, R80, R81). -/
def buildCmd (m : List Char) (ops : List Nat) : Except AsmError SourceCmd :=
  if m = "NOP".toList then plainCmd .nop ops
  else if m = "TICK".toList then
    match ops with
    | [raw] => .ok (.tick raw)
    | _ => .error .wrongOperandCount
  else if m = "EDGE_CLR".toList then plainCmd .edgeClr ops
  else if m = "INC_INT".toList then plainCmd .incInt ops
  else if m = "DEC_INT".toList then plainCmd .decInt ops
  else if m = "INC_DEC".toList then plainCmd .incDec ops
  else if m = "DEC_DEC".toList then plainCmd .decDec ops
  else if m = "RENDER".toList then plainCmd .render ops
  else if m = "DISP_OVERLAY".toList then plainCmd .dispOverlay ops
  else if m = "DISP_BLANK".toList then plainCmd .dispBlank ops
  else if m = "TONE_PLAY".toList then
    match ops with
    | [period, dur] => .ok (.tonePlay period dur)
    | _ => .error .wrongOperandCount
  else if m = "TONE_POLL".toList then plainCmd .tonePoll ops
  else if m = "TONE_INC".toList then plainCmd (.tonePreset .inc) ops
  else if m = "TONE_DEC".toList then plainCmd (.tonePreset .dec) ops
  else if m = "TONE_ERR".toList then plainCmd (.tonePreset .err) ops
  else if m = "TICKS".toList then
    match ops with
    | [n, raw] => .ok (.ticks n raw)
    | _ => .error .wrongOperandCount
  else .error .unknownMnemonic

/-- One line: "A `;` starts a comment" (30_encoding.md R79); an empty line is no command. -/
def readLine (line : List Char) : Except AsmError (Option SourceCmd) :=
  let text := trim (line.takeWhile (fun c => c != ';'))
  if text = [] then .ok none
  else
    let m := text.takeWhile (fun c => !isBlank c)
    match readOperands (text.drop m.length) with
    | none => .error .badOperand
    | some ops =>
      match buildCmd m ops with
      | .error e => .error e
      | .ok c => if c.wf then .ok (some c) else .error .operandTooWide

/-- The commands of a list of lines. -/
def assembleLines (lines : List (List Char)) : Except AsmError (List Instr) :=
  match lines with
  | [] => .ok []
  | l :: rest =>
    match readLine l, assembleLines rest with
    | .ok none, .ok is => .ok is
    | .ok (some c), .ok is => .ok (expand c ++ is)
    | .error e, _ => .error e
    | _, .error e => .error e

/-- The commands of a text, "One command per line" (30_encoding.md R79). -/
def assemble (text : List Char) : Except AsmError (List Instr) := assembleLines (cutAt '\n' text)

/-- The words of a text, each the canonical encoding of its command (30_encoding.md R73, R79). -/
def assembleWords (text : List Char) : Except AsmError (List CmdWord) :=
  match assemble text with
  | .ok is => .ok (is.map encode)
  | .error e => .error e

end Sys2Proof.Machine
end

