-- ==== Sys2Proof/Machine/Ports.lean ====
section
/-! DEFINITION. The output ports (spec/10_state.md R33): each a pure function of the state, sampled whole, with no
side effect (20_memory.md R55). `hist`, `filt`, `prev` and `t_end` have no port (R38). -/

namespace Sys2Proof.Machine

/-- The 4-bit BCD code in which a digit is stored (10_state.md R25). -/
def digitCode (d : Digit) : BitVec 4 := BitVec.ofNat 4 d.val

/-- `edge_o`: reading does not clear it (42_edge_detector.md R115). -/
def edgeO (s : State) : Nibble := s.edge

/-- `idig_o`. -/
def idigO (s : State) : BitVec 4 := digitCode s.idig

/-- `ddig_o`. -/
def ddigO (s : State) : BitVec 4 := digitCode s.ddig

/-- `now_o`. -/
def nowO (s : State) : Ms := s.now

/-- `disp_o`: both bytes from one state (20_memory.md R55, R63; 47_display_encoder.md R207). The external
multiplexer, at a TICK, takes exactly this sample. -/
def dispO (s : State) : Byte × Byte :=
  (Memory.read s.resets s.disp 0, Memory.read s.resets s.disp 1)

/-- `tone_on_o`, which equals `t_act` at all times (10_state.md R37). -/
def toneOnO (s : State) : BitVec 1 := if s.tAct then 1#1 else 0#1

/-- `tone_per_o`. -/
def tonePerO (s : State) : Period := s.tPer

/-- The seven ports together (10_state.md R33). -/
structure Ports where
  edgeO : Nibble
  idigO : BitVec 4
  ddigO : BitVec 4
  nowO : Ms
  dispO : Byte × Byte
  toneOnO : BitVec 1
  tonePerO : Period
deriving DecidableEq, Repr

/-- Every port sampled in one state. -/
def ports (s : State) : Ports :=
  { edgeO := edgeO s, idigO := idigO s, ddigO := ddigO s, nowO := nowO s, dispO := dispO s
    toneOnO := toneOnO s, tonePerO := tonePerO s }

/-- What the tone output primitive is given: the period while `tone_on_o = 1`, nothing (silence, the period ignored)
while `tone_on_o = 0` (44_tone_timer.md R150). -/
def toneOutput (s : State) : Option Period := if toneOnO s = 1#1 then some (tonePerO s) else none

/-- Byte `j` of `now_o`, for a host that takes the port in pieces (70_reset_and_hazards.md R251); `j` counts from the
least significant byte (DESIGN CHOICE, safe, assumption log 12). -/
def nowPiece (j : Fin 4) (s : State) : Byte := (nowO s).extractLsb' (8 * j.val) 8

/-- Put four pieces of `now_o` together again. -/
def joinPieces (p3 p2 p1 p0 : Byte) : Ms := p3 ++ p2 ++ p1 ++ p0

end Sys2Proof.Machine
end

