-- ==== Sys2Proof/Machine/RefHost.lean ====
section
/-! DEFINITION. The reference host: the error-flash overlay (spec/45_error_flash_overlay_host.md), the Dispatcher and
the main loop (46_dispatcher_host.md). The host samples ports and issues commands. A sequence of host operations is
the list `todo`; each operation is one act of the main agent, so a TICK may stand before any of them (20_memory.md
R57; DESIGN CHOICE, unsafe, assumption log 8). -/

namespace Sys2Proof.Machine

/-- Put operations before what is left to do. -/
def plan (ops : List HostOp) (s : State) : State := s.setHost { s.host with todo := ops ++ s.host.todo }

/-- One iteration of the main loop (46_dispatcher_host.md R190). -/
def mainLoop : List HostOp := [.issue .tonePoll, .overlayPoll, .dispatch]

/-! ### The error-flash overlay -/

/-- "The session is *active* exactly when `phase != NONE`" (45_error_flash_overlay_host.md R161). -/
def overlayActive (s : State) : Bool := decide (s.host.phase ≠ .none)

/-- `overlay.start()` (45_error_flash_overlay_host.md R162): settable only from NONE, otherwise ignored. -/
def overlayStart (s : State) : State :=
  match s.host.phase with
  | .none =>
    plan [.issue (presetInstr .err), .issue .dispOverlay]
      (s.setHost { s.host with phase := .on, deadline := nowO s + Config.flashPhaseMs, cycles := 0 })
  | .on => s
  | .off => s

/-- `overlay.poll()` up to its first command (45_error_flash_overlay_host.md R163, R164, R165). -/
def overlayPoll (s : State) : State :=
  match s.host.phase with
  | .none => s
  | .on => plan [.issue .dispOverlay, .overlayOnCheck] s
  | .off => plan [.issue .dispBlank, .overlayOffCheck] s

/-- The deadline test of a poll in ON; the new deadline is measured from the sample that sees the expiry
(45_error_flash_overlay_host.md R164). The test belongs to the phase ON the poll has dispatched on, which nothing
changes before it. -/
def overlayOnCheck (s : State) : State :=
  match s.host.phase with
  | .on =>
    if reached (nowO s) s.host.deadline then
      s.setHost { s.host with phase := .off, deadline := nowO s + Config.flashPhaseMs }
    else s
  | .off => s
  | .none => s

/-- `cycles_completed + 1`; it "reaches 3 and is not incremented further" (45_error_flash_overlay_host.md R165). -/
def countCycle (c : Fin 4) : Fin 4 := if h : c.val < 3 then ⟨c.val + 1, by omega⟩ else c

/-- The deadline test of a poll in OFF (45_error_flash_overlay_host.md R165), in the phase OFF the poll has
dispatched on. -/
def overlayOffCheck (s : State) : State :=
  match s.host.phase with
  | .off =>
    if reached (nowO s) s.host.deadline then
      if Config.flashCycles ≤ (countCycle s.host.cycles).val then
        plan [.issue .render, .endFlash] (s.setHost { s.host with cycles := countCycle s.host.cycles })
      else
        plan [.issue (presetInstr .err)]
          (s.setHost { s.host with
            cycles := countCycle s.host.cycles, phase := .on, deadline := nowO s + Config.flashPhaseMs })
    else s
  | .on => s
  | .none => s

/-! ### The Dispatcher -/

/-- `dstate <- d`. -/
def goto (d : DState) (s : State) : State := s.setHost { s.host with dstate := d }

/-- Which operation a sample of `edge_o` asks for, button 1 first (46_dispatcher_host.md R182). -/
def pickOperation (e : Nibble) : DState :=
  if e.getLsbD 0 then .incInt
  else if e.getLsbD 1 then .decInt
  else if e.getLsbD 2 then .incDec
  else if e.getLsbD 3 then .decDec
  else .idle

/-- Apply an operation with its tone, or start the error flash (46_dispatcher_host.md R183 to R186). -/
def operateOrFlash (allowed : Bool) (op : Instr) (tone : Preset) (s : State) : State :=
  if allowed then plan [.issue op, .issue (presetInstr tone), .goto .update] s
  else plan [.overlayStart, .goto .errorFlash] s

/-- `dispatcher.step()`: exactly the rule of the current state (46_dispatcher_host.md R181 to R188). -/
def dispatchStep (s : State) : State :=
  match s.host.dstate with
  | .idle => if overlayActive s then goto .idle s else goto (pickOperation (edgeO s)) s
  | .incInt => operateOrFlash (decide (idigO s < 9#4)) .incInt .inc s
  | .decInt => operateOrFlash (decide (idigO s > 0#4)) .decInt .dec s
  | .incDec => operateOrFlash (!(idigO s == 9#4 && ddigO s == 9#4)) .incDec .inc s
  | .decDec => operateOrFlash (!(idigO s == 0#4 && ddigO s == 0#4)) .decDec .dec s
  | .errorFlash => if overlayActive s then goto .errorFlash s else goto .update s
  | .update => plan [.issue .render, .issue .edgeClr, .goto .idle] s

/-! ### Boot -/

/-- Boot step 1 (70_reset_and_hazards.md R243). -/
def setOwnState (s : State) : State := s.setHost { s.host with phase := .none, dstate := .idle }

/-- Write whether the tick source is enabled (20_memory.md R59, 70_reset_and_hazards.md R243). One flag serves boot step
3 and critical sections alike, the last write wins, and sections do not nest: a section closed before boot step 3
enables the source, boot step 3 inside an open section ends it, and the first close ends every open one (DESIGN CHOICE,
unsafe, assumption log 17). -/
def enableTicks (on : Bool) (s : State) : State := s.setTicks { s.ticks with enabled := on }

end Sys2Proof.Machine
end

