-- ==== Sys2Proof/Machine/Input.lean ====
section
/-! DEFINITION. How the next command comes to the block. The block fetches nothing (spec/10_state.md R40, R61): what
is presented is in `State.input`, and here one instant of it is turned into a command word on `cmd`, or into an event
that presents none. -/

namespace Sys2Proof.Machine

/-- What the block is given next. -/
inductive Fetched where
  /-- This word stands on `cmd`; the state is the one the command will read. -/
  | command (w : CmdWord) (s : State)
  /-- No command is presented; the state after the event. -/
  | quiet (s : State)
deriving DecidableEq, Repr

/-- A firing of the tick source, delivered: "one `TICK raw` command, carrying the raw sample taken at that firing"
(60_exceptions.md R224, R227). -/
def deliverTick (raw : Nibble) (s : State) : Fetched := .command (encode (.tick raw)) s

/-- A firing of the tick source: delivered, or deferred while the source is suppressed, not dropped (20_memory.md
R59; DESIGN CHOICE, unsafe, assumption log 6). -/
def fireTick (raw : Nibble) (s : State) : Fetched :=
  if s.ticks.enabled then deliverTick raw s
  else .quiet (s.setTicks { s.ticks with held := s.ticks.held ++ [raw] })

/-- One operation of the reference host. -/
def hostOp (op : HostOp) (s : State) : Fetched :=
  match op with
  | .setOwnState => .quiet (setOwnState s)
  | .issue i => .command (encode i) s
  | .enableTicks => .quiet (enableTicks true s)
  | .overlayStart => .quiet (overlayStart s)
  | .overlayPoll => .quiet (overlayPoll s)
  | .overlayOnCheck => .quiet (overlayOnCheck s)
  | .overlayOffCheck => .quiet (overlayOffCheck s)
  | .endFlash => .quiet (s.setHost { s.host with phase := .none })
  | .dispatch => .quiet (dispatchStep s)
  | .goto d => .quiet (goto d s)

/-- What the host does next: the rest of the current pass, or the main loop anew (46_dispatcher_host.md R190). -/
def pendingOps (s : State) : List HostOp :=
  match s.host.todo with
  | [] => mainLoop
  | op :: rest => op :: rest

/-- The reference host does its next operation. -/
def hostTurn (s : State) : Fetched :=
  match pendingOps s with
  | [] => .quiet s
  | op :: rest => hostOp op (s.setHost { s.host with todo := rest })

/-- The main agent acts. -/
def mainAct (a : MainAct) (s : State) : Fetched :=
  match a with
  | .command w => .command w s
  | .host => hostTurn s
  | .suppressTicks => .quiet (enableTicks false s)
  | .resumeTicks => .quiet (enableTicks true s)

/-- What an instant leaves to be presented once its firing has been taken. -/
def afterFiring (a : Option MainAct) (rest : List Instant) : List Instant :=
  match a with
  | none => rest
  | some act => .present none (some act) :: rest

/-- The next instant of the input, in arrival order (20_memory.md R56). Of a firing and an act of the main agent
presented together, the firing is first (R58). -/
def nextInstant (s : State) : Fetched :=
  match s.input with
  | [] => .quiet s
  | .reset :: rest => .quiet (resetEvent (s.setInput rest))
  | .present none none :: rest => .quiet (s.setInput rest)
  | .present none (some a) :: rest => mainAct a (s.setInput rest)
  | .present (some raw) a :: rest => fireTick raw (s.setInput (afterFiring a rest))

/-- What the block is given next: a deferred firing as soon as the tick source is enabled again (60_exceptions.md
R224, "delivered when the span ends"), otherwise the next instant of the input. -/
def fetch (s : State) : Fetched :=
  match s.ticks.enabled, s.ticks.held with
  | true, raw :: rest => deliverTick raw (s.setTicks { s.ticks with held := rest })
  | true, [] => nextInstant s
  | false, _ => nextInstant s

end Sys2Proof.Machine
end

