-- ==== Sys2Proof/Machine/Step.lean ====
section
/-! DEFINITION. One step: the next command of the total order, decoded and executed atomically (spec/20_memory.md
R56), or an event that presents no command. -/

namespace Sys2Proof.Machine

/-- One step of the machine. -/
def step (s : State) : Host.Outcome State Fault Refusal :=
  match fetch s with
  | .command w s' => exec (decode w) s'
  | .quiet s' => .next s'

/-- The state with this word presented on `cmd` next, by the main agent. A deferred firing that would be delivered
before it is taken away. -/
def State.withFetchWord (s : State) (nbits w : Nat) : State :=
  { s with
    input := .present none (some (.command (BitVec.ofNat 36 (w % 2 ^ nbits)))) :: s.input
    ticks := { s.ticks with held := if s.ticks.enabled then [] else s.ticks.held } }

end Sys2Proof.Machine
end

