-- ==== Sys2Proof/Safety.lean ====
section
/-! DEFINITION. What counts as a good state or a good run, in the terms the statements use: who may issue a command
(spec/30_encoding.md R77), the host's duties (70_reset_and_hazards.md R250), and the invariants. -/

namespace Sys2Proof.Machine

/-! ### Runs of commands -/

/-- The commands of a list, one after the other, stopping at the first that gives no next state. -/
def runInstrs (is : List Instr) (s : State) : Outcome :=
  match is with
  | [] => .next s
  | i :: rest =>
    match exec i s with
    | .next t => runInstrs rest t
    | .fault f => .fault f
    | .refused r => .refused r

/-- Every address of `DISP` reads in `t` as in `s`, addresses that do not exist included. -/
def SameDisplay (s t : State) : Prop := ∀ a, memRead .disp a t = memRead .disp a s

/-- `V = 10 × idig + ddig` (43_bcd_counter.md R127). -/
def counterValue (s : State) : Nat := 10 * s.idig.val + s.ddig.val

/-! ### Who may issue what (30_encoding.md R75, R77) -/

/-- The main agent may issue every command but TICK; a reserved opcode is no command. -/
def mainMayIssue (i : Instr) : Bool :=
  match i with
  | .tick _ => false
  | .nop => true
  | .edgeClr => true
  | .incInt => true
  | .decInt => true
  | .incDec => true
  | .decDec => true
  | .render => true
  | .dispOverlay => true
  | .dispBlank => true
  | .tonePlay _ _ => true
  | .tonePoll => true
  | .reserved3 => false
  | .reservedB => false
  | .reservedE => false
  | .reservedF => false

/-- A host operation issues only what the main agent may. -/
def hostOpLegal (op : HostOp) : Bool :=
  match op with
  | .issue i => mainMayIssue i
  | _ => true

/-- The premise of R77 on a stream: the words the main agent presents are commands it may issue (a firing is a TICK
by its type). -/
def respectsIssuers (l : List Instant) : Bool :=
  l.all (fun x =>
    match x with
    | .present _ (some (.command w)) => mainMayIssue (decode w)
    | _ => true)

/-! ### Invariants -/

/-- The operation sets `phase` to NONE: the end of a flash (45_error_flash_overlay_host.md R165), or boot step 1
(70_reset_and_hazards.md R243). -/
def setsPhaseNone (op : HostOp) : Bool :=
  match op with
  | .setOwnState => true
  | .endFlash => true
  | _ => false

/-- No operation of the list sets `phase` to NONE. -/
def keepsFlash (ops : List HostOp) : Bool := ops.all (fun op => !setsPhaseNone op)

/-- The third cycle of a flash is complete and its last RENDER is due or done: `cycles_completed = 3` in OFF
(45_error_flash_overlay_host.md R165). -/
def flashComplete (h : HostState) : Bool := decide (h.phase = .off) && decide (h.cycles.val = 3)

/-- An operation that sets `phase` to NONE is pending only where it is due: boot step 1 first of all and with no
flash, the end of a flash right after its last RENDER and with the third cycle complete. -/
def flashEndsInOrder (h : HostState) : Bool :=
  match h.todo with
  | .setOwnState :: rest => decide (h.phase = .none) && keepsFlash rest
  | .issue .render :: .endFlash :: rest => flashComplete h && keepsFlash rest
  | .endFlash :: rest => flashComplete h && keepsFlash rest
  | ops => keepsFlash ops

/-- What every step keeps: `DISP` in canonical form, `prev == filt` (10_state.md R36), only commands of the main
agent among the host's pending operations, and the end of a flash pending only where it is due. -/
structure Inv (s : State) : Prop where
  displayCanonical : Memory.wf s.resets s.disp = true
  latchEqual : s.prev = s.filt
  hostLegal : s.host.todo.all hostOpLegal = true
  flashInOrder : flashEndsInOrder s.host = true

/-- No deferred firing is due before the next instant of the input. -/
def noTickDue (s : State) : Bool := !s.ticks.enabled || s.ticks.held.isEmpty

/-- The instant at which the reference host does its next operation. -/
def hostInstant : Instant := .present none (some .host)

/-! ### The host's pre-checks (43_bcd_counter.md R126, 70_reset_and_hazards.md R250) -/

/-- The operation issues one of the four counter commands. -/
def issuesCounter (op : HostOp) : Bool :=
  match op with
  | .issue .incInt => true
  | .issue .decInt => true
  | .issue .incDec => true
  | .issue .decDec => true
  | _ => false

/-- If the operation issues a counter command, the digits are not at the boundary the host must check before it. -/
def preChecked (s : State) (op : HostOp) : Bool :=
  match op with
  | .issue .incInt => decide (s.idig.val < 9)
  | .issue .decInt => decide (0 < s.idig.val)
  | .issue .incDec => !(decide (s.idig.val = 9) && decide (s.ddig.val = 9))
  | .issue .decDec => !(decide (s.idig.val = 0) && decide (s.ddig.val = 0))
  | _ => true

/-- The main agent of this input is the reference host alone: no instant presents a word of its own. -/
def onlyHostActs (l : List Instant) : Bool :=
  l.all (fun x =>
    match x with
    | .present _ (some (.command _)) => false
    | _ => true)

/-- The reference host drives the block alone, a counter command can only be its very next operation, and that one
is pre-checked. -/
def hostGuarded (s : State) : Bool :=
  onlyHostActs s.input &&
    match s.host.todo with
    | [] => true
    | op :: rest => preChecked s op && rest.all (fun o => !issuesCounter o)

end Sys2Proof.Machine
end

