-- ==== Sys2Proof/Certificates/Slice0/Obligations.lean ====
section
/-! DEFINITION. The statements for the provers. Each cites the rule of spec/ it formalises; OBLIGATIONS.json lists
them. -/

open Sys2Proof Sys2Proof.Machine

/-! ### Encoding (spec/30_encoding.md) -/

/-- R70, R75: decoding the canonical word of any command, reserved ones included, gives that command back. -/
def Obligations.DecodeOfEncodeIsTheCommand : Prop := ∀ i : Instr, decode (encode i) = i

/-- R73: encoding what a word decodes to gives that word with its ignored bits cleared. -/
def Obligations.EncodeOfDecodeIsTheCanonicalWord : Prop := ∀ w : CmdWord, encode (decode w) = canonicalWord w

/-- R73: an encoder writes ignored bits as 0, and two words that differ only in ignored bits are the same command. -/
def Obligations.IgnoredBitsDoNotMatter : Prop :=
  (∀ i : Instr, canonicalWord (encode i) = encode i) ∧
  ∀ w w' : CmdWord, canonicalWord w = canonicalWord w' → decode w = decode w'

/-- R74: the opcode field alone selects the command, in match-and-mask form with the mask 0xF00000000; exactly the
four reserved opcodes select none of the twelve commands. -/
def Obligations.OpcodeAloneSelectsTheCommand : Prop :=
  ∀ w : CmdWord,
    (decode w).opcode = w.extractLsb' 32 4 ∧
    (∀ op : Opcode, (decode w).opcode = op ↔ w &&& 0xF00000000#36 = op.setWidth 36 <<< 32) ∧
    ((decode w).wf = false ↔
      (decode w).opcode = 0x3#4 ∨ (decode w).opcode = 0xB#4 ∨ (decode w).opcode = 0xE#4 ∨ (decode w).opcode = 0xF#4)

/-- R82: the worked encodings, both ways, and the reserved opcode 0x3 with any operand field. -/
def Obligations.WorkedEncodings : Prop :=
  (∀ p ∈ ([(.nop, 0x000000000#36), (.tick 0b1111#4, 0x10000000F#36), (.tick 0b1011#4, 0x10000000B#36),
      (.edgeClr, 0x200000000#36), (.incInt, 0x400000000#36), (.decInt, 0x500000000#36), (.incDec, 0x600000000#36),
      (.decDec, 0x700000000#36), (.render, 0x800000000#36), (.dispOverlay, 0x900000000#36),
      (.dispBlank, 0xA00000000#36), (.tonePlay 1000#16 50#16, 0xC03E80032#36),
      (.tonePlay 0x1234#16 0#16, 0xC12340000#36), (.tonePoll, 0xD00000000#36)] : List (Instr × CmdWord)),
    encode p.1 = p.2 ∧ decode p.2 = p.1) ∧
  ∀ arg : Arg, ∀ s : State, exec (decode (0x3#4 ++ arg)) s = .refused (.illegalCommand 0x3#4)

/-- R72: `raw = arg[3:0]` bit by bit, `period = arg[31:16]` unchanged, `dur = arg[15:0]` zero-extended. -/
def Obligations.OperandAssembly : Prop :=
  (∀ w : CmdWord, w.extractLsb' 32 4 = 0x1#4 → decode w = .tick (w.extractLsb' 0 4)) ∧
  (∀ w : CmdWord, w.extractLsb' 32 4 = 0xC#4 → decode w = .tonePlay (w.extractLsb' 16 16) (w.extractLsb' 0 16)) ∧
  (∀ (raw : Nibble) (k : Channel), rawBit raw k = raw.getLsbD k.val) ∧
  ∀ dur : Duration, (durationMs dur).toNat = dur.toNat

/-- R76, R221, R222: a word with a reserved opcode is refused as IllegalCommand with that opcode, whatever its
operand field; no next state exists. -/
def Obligations.ReservedOpcodesAreRefused : Prop :=
  (∀ s : State, exec .reserved3 s = .refused (.illegalCommand 0x3#4) ∧
    exec .reservedB s = .refused (.illegalCommand 0xB#4) ∧
    exec .reservedE s = .refused (.illegalCommand 0xE#4) ∧
    exec .reservedF s = .refused (.illegalCommand 0xF#4)) ∧
  ∀ (op : Opcode) (arg : Arg) (s : State), op = 0x3#4 ∨ op = 0xB#4 ∨ op = 0xE#4 ∨ op = 0xF#4 →
    exec (decode (op ++ arg)) s = .refused (.illegalCommand op)

/-! ### TICK, NOP, debounce (spec/40_tick_nop.md, 41_debounce_filter.md) -/

/-- R93: every word with opcode 0 is NOP, and NOP gives the same state. -/
def Obligations.NopChangesNothing : Prop :=
  (∀ w : CmdWord, w.extractLsb' 32 4 = 0x0#4 → decode w = .nop) ∧ ∀ s : State, exec .nop s = .next s

/-- R90 (with R91, R100 to R102, R110 to R112): what a TICK does, from every state and for every raw sample, and that
it changes nothing else. -/
def Obligations.TickResult : Prop :=
  (∀ w : CmdWord, w.extractLsb' 32 4 = 0x1#4 → decode w = .tick (w.extractLsb' 0 4)) ∧
  ∀ (raw : Nibble) (s : State), ∃ t : State, exec (.tick raw) s = .next t ∧
    t.now = s.now + 10#32 ∧
    (∀ k : Channel, t.hist.get k = (s.hist.get k).extractLsb' 0 7 ++ BitVec.ofBool (raw.getLsbD k.val)) ∧
    (∀ k : Channel, t.filt.getLsbD k.val =
      if t.hist.get k = 0x00#8 then false
      else if t.hist.get k = 0xFF#8 then true
      else s.filt.getLsbD k.val) ∧
    t.edge = s.edge ||| (s.prev &&& ~~~t.filt) ∧
    t.prev = t.filt ∧
    t = { s with now := t.now, hist := t.hist, filt := t.filt, edge := t.edge, prev := t.prev } ∧
    SameDisplay s t

/-- R91: TICK adds 10 modulo 2^32 and no other command changes `now`; from 0xFFFFFFFA it wraps to 4. -/
def Obligations.OnlyTickAdvancesNow : Prop :=
  (∀ (raw : Nibble) (s : State), ∃ t : State, exec (.tick raw) s = .next t ∧
    t.now.toNat = (s.now.toNat + 10) % 2 ^ 32 ∧ (s.now = 0xFFFFFFFA#32 → t.now = 4#32)) ∧
  ∀ (i : Instr) (s t : State), exec i s = .next t → (∀ raw, i ≠ .tick raw) → t.now = s.now

/-- R101: after 8 or more TICKs a history register holds exactly the last 8 samples of its channel, the newest in
bit 0, and nothing of any earlier sample. -/
def Obligations.HistoryIsTheLastEightSamples : Prop :=
  ∀ (rs : List Nibble) (s : State), 8 ≤ rs.length →
    ∃ t : State, runInstrs (rs.map Instr.tick) s = .next t ∧
      ∀ (k : Channel) (j : Nat), j < 8 → (t.hist.get k).getLsbD j = (rs.reverse.getD j 0#4).getLsbD k.val

/-- R103: `filt[k]` goes from 1 to 0 at a TICK exactly when that TICK's sample and the 7 before it are 0, and from 0
to 1 exactly when all eight are 1. -/
def Obligations.EightIdenticalSamplesFlip : Prop :=
  ∀ (pre : List Nibble) (raw : Nibble) (k : Channel) (s u t : State), pre.length = 7 →
    runInstrs (pre.map Instr.tick) s = .next u → exec (.tick raw) u = .next t →
    (u.filt.getLsbD k.val = true →
      (t.filt.getLsbD k.val = false ↔ ∀ r ∈ pre ++ [raw], r.getLsbD k.val = false)) ∧
    (u.filt.getLsbD k.val = false →
      (t.filt.getLsbD k.val = true ↔ ∀ r ∈ pre ++ [raw], r.getLsbD k.val = true))

/-- R104: after a sample at the level the channel already has, seven further TICKs or fewer change nothing whatever
they sample, and eight further samples at the other level flip it. -/
def Obligations.OppositeSampleRestartsTheCount : Prop :=
  ∀ (raw : Nibble) (rs : List Nibble) (k : Channel) (b : Bool) (s u : State),
    raw.getLsbD k.val = b → exec (.tick raw) s = .next u → u.filt.getLsbD k.val = b →
    ∃ t : State, runInstrs (rs.map Instr.tick) u = .next t ∧
      (rs.length ≤ 7 → t.filt.getLsbD k.val = b) ∧
      (rs.length = 8 → (∀ r ∈ rs, r.getLsbD k.val = !b) → t.filt.getLsbD k.val = !b)

/-- R35: a command that changes `filt[k]` is a TICK whose new `hist[k]` is 0x00 (to 0) or 0xFF (to 1). -/
def Obligations.FilterChangesOnlyAtAllZeroOrAllOne : Prop :=
  ∀ (i : Instr) (s t : State) (k : Channel), exec i s = .next t → t.filt.getLsbD k.val ≠ s.filt.getLsbD k.val →
    (∃ raw, i = .tick raw) ∧
    ((t.filt.getLsbD k.val = false ∧ t.hist.get k = 0x00#8) ∨ (t.filt.getLsbD k.val = true ∧ t.hist.get k = 0xFF#8))

/-! ### The edge detector (spec/42_edge_detector.md) -/

/-- R111: the edge function is 1 exactly on released-to-pressed, and equals the XOR form `(prev ^ filt) & prev`. -/
def Obligations.EdgeFunctionAndItsXorForm : Prop :=
  ∀ prev filt : Nibble, newEdges prev filt = prev &&& ~~~filt ∧
    (prev ^^^ filt) &&& prev = newEdges prev filt ∧
    ∀ k : Channel, (newEdges prev filt).getLsbD k.val = (prev.getLsbD k.val && !filt.getLsbD k.val)

/-- R112: where the latch holds (R36), a TICK sets the edge bit of exactly the channels whose filtered bit goes from
1 to 0 in it, keeps every bit already set, and latches. -/
def Obligations.TickSetsAnEdgeBitExactlyOnAPress : Prop :=
  ∀ (raw : Nibble) (s t : State), s.prev = s.filt → exec (.tick raw) s = .next t →
    t.prev = t.filt ∧
    ∀ k : Channel, t.edge.getLsbD k.val =
      (s.edge.getLsbD k.val || (s.filt.getLsbD k.val && !t.filt.getLsbD k.val))

/-- R114: EDGE_CLR clears all four bits and changes nothing else. -/
def Obligations.EdgeClrResult : Prop :=
  (∀ w : CmdWord, w.extractLsb' 32 4 = 0x2#4 → decode w = .edgeClr) ∧
  ∀ s : State, exec .edgeClr s = .next { s with edge := 0b0000#4 } ∧ SameDisplay s { s with edge := 0b0000#4 }

/-- R115: an edge bit stays 1 through every command but EDGE_CLR. -/
def Obligations.EdgeBitStaysUntilEdgeClr : Prop :=
  ∀ (i : Instr) (s t : State) (k : Channel), exec i s = .next t → i ≠ .edgeClr →
    (edgeO s).getLsbD k.val = true → (edgeO t).getLsbD k.val = true

/-! ### The counter (spec/43_bcd_counter.md) -/

/-- R121: INC_INT. -/
def Obligations.IncIntResult : Prop :=
  (∀ w : CmdWord, w.extractLsb' 32 4 = 0x4#4 → decode w = .incInt) ∧
  ∀ s : State, ∃ t : State, exec .incInt s = .next t ∧
    t.idig.val = (if s.idig.val < 9 then s.idig.val + 1 else s.idig.val) ∧
    t = { s with idig := t.idig } ∧ SameDisplay s t

/-- R122: DEC_INT. -/
def Obligations.DecIntResult : Prop :=
  (∀ w : CmdWord, w.extractLsb' 32 4 = 0x5#4 → decode w = .decInt) ∧
  ∀ s : State, ∃ t : State, exec .decInt s = .next t ∧
    t.idig.val = (if s.idig.val > 0 then s.idig.val - 1 else s.idig.val) ∧
    t = { s with idig := t.idig } ∧ SameDisplay s t

/-- R123 (and R125 at (9, 9)): INC_DEC. -/
def Obligations.IncDecResult : Prop :=
  (∀ w : CmdWord, w.extractLsb' 32 4 = 0x6#4 → decode w = .incDec) ∧
  ∀ s : State, ∃ t : State, exec .incDec s = .next t ∧
    (s.ddig.val < 9 → t.ddig.val = s.ddig.val + 1 ∧ t.idig = s.idig) ∧
    (s.ddig.val = 9 → t.ddig.val = 0 ∧ t.idig.val = (if s.idig.val < 9 then s.idig.val + 1 else s.idig.val)) ∧
    t = { s with idig := t.idig, ddig := t.ddig } ∧ SameDisplay s t

/-- R124 (and R125 at (0, 0)): DEC_DEC. -/
def Obligations.DecDecResult : Prop :=
  (∀ w : CmdWord, w.extractLsb' 32 4 = 0x7#4 → decode w = .decDec) ∧
  ∀ s : State, ∃ t : State, exec .decDec s = .next t ∧
    (0 < s.ddig.val → t.ddig.val = s.ddig.val - 1 ∧ t.idig = s.idig) ∧
    (s.ddig.val = 0 → t.ddig.val = 9 ∧ t.idig.val = (if s.idig.val > 0 then s.idig.val - 1 else s.idig.val)) ∧
    t = { s with idig := t.idig, ddig := t.ddig } ∧ SameDisplay s t

/-- R127: the effect of the four commands on `V = 10 × idig + ddig`, from every state. -/
def Obligations.CounterCommandsOnTheValue : Prop :=
  ∀ s : State, counterValue s ≤ 99 ∧ ∃ a b c d : State,
    exec .incInt s = .next a ∧ exec .decInt s = .next b ∧ exec .incDec s = .next c ∧ exec .decDec s = .next d ∧
    counterValue a = (if s.idig.val < 9 then counterValue s + 10 else counterValue s) ∧
    counterValue b = (if s.idig.val > 0 then counterValue s - 10 else counterValue s) ∧
    counterValue c = (if counterValue s < 99 then counterValue s + 1 else 90) ∧
    counterValue d = (if counterValue s > 0 then counterValue s - 1 else 9)

/-- R129: away from its boundary each counter command is undone by its opposite, carry or not. At its boundary it is
not: (9, 9) and (0, 0) as R129 says, and `idig = 9` and `idig = 0`, where INC_INT and DEC_INT do nothing (R121, R122)
and the opposite then does something. -/
def Obligations.CounterRoundTrip : Prop :=
  ∀ s : State,
    (¬(s.idig.val = 9 ∧ s.ddig.val = 9) → runInstrs [.incDec, .decDec] s = .next s) ∧
    (¬(s.idig.val = 0 ∧ s.ddig.val = 0) → runInstrs [.decDec, .incDec] s = .next s) ∧
    (s.idig.val < 9 → runInstrs [.incInt, .decInt] s = .next s) ∧
    (s.idig.val > 0 → runInstrs [.decInt, .incInt] s = .next s) ∧
    (s.idig.val = 9 → runInstrs [.incInt, .decInt] s = .next { s with idig := 8 }) ∧
    (s.idig.val = 0 → runInstrs [.decInt, .incInt] s = .next { s with idig := 1 }) ∧
    (s.idig.val = 9 ∧ s.ddig.val = 9 → runInstrs [.incDec, .decDec] s = .next { s with idig := 8, ddig := 9 }) ∧
    (s.idig.val = 0 ∧ s.ddig.val = 0 → runInstrs [.decDec, .incDec] s = .next { s with idig := 1, ddig := 0 })

/-- R33, R38: every port is the register it names, the digit ports carry the digits as 4-bit codes, and no port
depends on `hist`, `filt`, `prev` or `t_end`. That no digit port is ever above 9 (R34) holds in every state because
the model types a digit as a number below 10 (assumption log 4). -/
def Obligations.OutputPortsShowTheState : Prop :=
  ∀ s : State,
    (ports s).edgeO = s.edge ∧ (ports s).nowO = s.now ∧ (ports s).tonePerO = s.tPer ∧
    ((ports s).toneOnO = 1#1 ↔ s.tAct = true) ∧
    (ports s).idigO.toNat = s.idig.val ∧ (ports s).ddigO.toNat = s.ddig.val ∧
    (ports s).idigO.toNat ≤ 9 ∧ (ports s).ddigO.toNat ≤ 9 ∧
    memRead .disp 0 s = .ok (ports s).dispO.1 ∧ memRead .disp 1 s = .ok (ports s).dispO.2 ∧
    ∀ u : State, ports { s with hist := u.hist, filt := u.filt, prev := u.prev, tEnd := u.tEnd } = ports s

/-! ### The tone timer (spec/44_tone_timer.md, 00_scope.md R10) -/

/-- R141: TONE_PLAY sets the whole slot, whatever was playing, and the output is on with the new period at once. -/
def Obligations.TonePlayResult : Prop :=
  (∀ w : CmdWord, w.extractLsb' 32 4 = 0xC#4 →
    decode w = .tonePlay (w.extractLsb' 16 16) (w.extractLsb' 0 16)) ∧
  ∀ (period : Period) (dur : Duration) (s : State), ∃ t : State, exec (.tonePlay period dur) s = .next t ∧
    t.tPer = period ∧ t.tAct = true ∧ t.tEnd.toNat = (s.now.toNat + dur.toNat) % 2 ^ 32 ∧
    toneOnO t = 1#1 ∧ toneOutput t = some period ∧
    t = { s with tPer := t.tPer, tAct := t.tAct, tEnd := t.tEnd } ∧ SameDisplay s t

/-- R143: TONE_POLL clears `t_act` exactly when the tone is active and its deadline reached, and changes nothing
else; when inactive or not yet due it changes nothing. -/
def Obligations.TonePollResult : Prop :=
  (∀ w : CmdWord, w.extractLsb' 32 4 = 0xD#4 → decode w = .tonePoll) ∧
  ∀ s : State, ∃ t : State, exec .tonePoll s = .next t ∧
    (s.tAct = true ∧ (s.now - s.tEnd).toNat < 2 ^ 31 → t = { s with tAct := false } ∧ toneOutput t = none) ∧
    (¬(s.tAct = true ∧ (s.now - s.tEnd).toNat < 2 ^ 31) → t = s) ∧ SameDisplay s t

/-- R144: the only command that turns a playing tone off is TONE_POLL, with the deadline reached. -/
def Obligations.OnlyTonePollStopsATone : Prop :=
  ∀ (i : Instr) (s t : State), exec i s = .next t → s.tAct = true → t.tAct = false →
    i = .tonePoll ∧ reached s.now s.tEnd = true

/-- R10: for a deadline `n0 + delta`, delta below 2^31, and fewer than 2^31 ms gone by since `n0`, `reached` says
exactly whether at least delta ms have, wrapped or not; where nothing wraps it is the plain comparison. -/
def Obligations.ReachedCountsElapsedTime : Prop :=
  (∀ n0 delta elapsed : Ms, delta.toNat < 2 ^ 31 → elapsed.toNat < 2 ^ 31 →
    (reached (n0 + elapsed) (n0 + delta) = true ↔ delta.toNat ≤ elapsed.toNat)) ∧
  ∀ n0 delta elapsed : Ms, delta.toNat < 2 ^ 31 → elapsed.toNat < 2 ^ 31 →
    n0.toNat + delta.toNat < 2 ^ 32 → n0.toNat + elapsed.toNat < 2 ^ 32 →
    (reached (n0 + elapsed) (n0 + delta) = true ↔ (n0 + delta).toNat ≤ (n0 + elapsed).toNat)

/-- R145: a tone of `dur` ms, polled after every TICK, is on after n TICKs exactly while 10 n < dur: it goes off at
the first poll after the TICK that makes `now >= n0 + dur`. -/
def Obligations.ToneLastsItsDurationInTicks : Prop :=
  ∀ (period : Period) (dur : Duration) (rs : List Nibble) (s : State), rs ≠ [] → 10 * rs.length < 2 ^ 31 →
    ∃ t : State,
      runInstrs (.tonePlay period dur :: rs.flatMap (fun r => [Instr.tick r, Instr.tonePoll])) s = .next t ∧
      (t.tAct = true ↔ 10 * rs.length < dur.toNat)

/-- R80, R147: the three presets are TONE_PLAY with their period and 50, 70, 80 ms, encoded as the table of R80 says.
The order PER_INC < PER_DEC < PER_ERR is R148, which the spec derives from the source's words; in the model it holds
because the triple of periods is typed with it (assumption log 3). -/
def Obligations.TonePresets : Prop :=
  expand (.tonePreset .inc) = [.tonePlay Config.perInc 50#16] ∧
  expand (.tonePreset .dec) = [.tonePlay Config.perDec 70#16] ∧
  expand (.tonePreset .err) = [.tonePlay Config.perErr 80#16] ∧
  encode (presetInstr .inc) = 0xC#4 ++ Config.perInc ++ 0x0032#16 ∧
  encode (presetInstr .dec) = 0xC#4 ++ Config.perDec ++ 0x0046#16 ∧
  encode (presetInstr .err) = 0xC#4 ++ Config.perErr ++ 0x0050#16 ∧
  Config.perInc.toNat < Config.perDec.toNat ∧ Config.perDec.toNat < Config.perErr.toNat

/-! ### The display encoder (spec/47_display_encoder.md) -/

/-- R201: RENDER writes the integer digit's pattern to position 0 and the decimal digit's to position 1, for every
value of the table, and changes nothing else. -/
def Obligations.RenderResult : Prop :=
  (∀ w : CmdWord, w.extractLsb' 32 4 = 0x8#4 → decode w = .render) ∧
  ∀ s : State, ∃ t : State, exec .render s = .next t ∧
    memRead .disp 0 t = .ok (Config.segLut s.idig) ∧ memRead .disp 1 t = .ok (Config.segLut s.ddig) ∧
    (∀ a, a ≠ 0 → a ≠ 1 → memRead .disp a t = memRead .disp a s) ∧
    dispO t = (Config.segLut s.idig, Config.segLut s.ddig) ∧ t = { s with disp := t.disp }

/-- R202: DISP_OVERLAY writes the overlay glyph to both positions and changes nothing else. -/
def Obligations.DispOverlayResult : Prop :=
  (∀ w : CmdWord, w.extractLsb' 32 4 = 0x9#4 → decode w = .dispOverlay) ∧
  ∀ s : State, ∃ t : State, exec .dispOverlay s = .next t ∧
    memRead .disp 0 t = .ok Config.segOverlay ∧ memRead .disp 1 t = .ok Config.segOverlay ∧
    (∀ a, a ≠ 0 → a ≠ 1 → memRead .disp a t = memRead .disp a s) ∧
    dispO t = (Config.segOverlay, Config.segOverlay) ∧ t = { s with disp := t.disp }

/-- R203: DISP_BLANK writes the blank pattern to both positions and changes nothing else. -/
def Obligations.DispBlankResult : Prop :=
  (∀ w : CmdWord, w.extractLsb' 32 4 = 0xA#4 → decode w = .dispBlank) ∧
  ∀ s : State, ∃ t : State, exec .dispBlank s = .next t ∧
    memRead .disp 0 t = .ok Config.segBlank ∧ memRead .disp 1 t = .ok Config.segBlank ∧
    (∀ a, a ≠ 0 → a ≠ 1 → memRead .disp a t = memRead .disp a s) ∧
    dispO t = (Config.segBlank, Config.segBlank) ∧ t = { s with disp := t.disp }

/-- R255, R94: only the three display commands change what `disp_o` shows. -/
def Obligations.OnlyDisplayCommandsChangeTheDisplay : Prop :=
  ∀ (i : Instr) (s t : State), exec i s = .next t → i ≠ .render → i ≠ .dispOverlay → i ≠ .dispBlank →
    SameDisplay s t ∧ dispO t = dispO s

/-- R201 to R203, "idempotent": a second display command of the same kind gives the same state, memory included, in
every state whose display memory is canonical. -/
def Obligations.DisplayCommandsAreIdempotent : Prop :=
  ∀ (i : Instr) (s t : State), i = .render ∨ i = .dispOverlay ∨ i = .dispBlank →
    Memory.wf s.resets s.disp = true → exec i s = .next t → exec i t = .next t

/-! ### The whole block -/

/-- R220: every one of the twelve commands completes, for every state and every operand value. -/
def Obligations.EveryCommandCompletes : Prop :=
  ∀ (i : Instr) (s : State), i.wf = true → ∃ t : State, exec i s = .next t

/-- R222: no step faults; a step is refused only for a presented word with a reserved opcode, and the recorded value
is that opcode. -/
def Obligations.StepStopsOnlyOnAReservedOpcode : Prop :=
  (∀ (s : State) (f : Fault), step s ≠ .fault f) ∧
  ∀ (s : State) (r : Refusal), step s = .refused r → ∃ (w : CmdWord) (s' : State), fetch s = .command w s' ∧
    r = .illegalCommand (w.extractLsb' 32 4) ∧
    (w.extractLsb' 32 4 = 0x3#4 ∨ w.extractLsb' 32 4 = 0xB#4 ∨ w.extractLsb' 32 4 = 0xE#4 ∨
      w.extractLsb' 32 4 = 0xF#4)

/-- R43: which command may write which register. -/
def Obligations.SingleWriterOwnership : Prop :=
  ∀ (i : Instr) (s t : State), exec i s = .next t →
    ((∀ raw, i ≠ .tick raw) → t.hist = s.hist ∧ t.filt = s.filt ∧ t.prev = s.prev ∧ t.now = s.now) ∧
    ((∀ raw, i ≠ .tick raw) → i ≠ .edgeClr → t.edge = s.edge) ∧
    (i ≠ .incInt → i ≠ .decInt → i ≠ .incDec → i ≠ .decDec → t.idig = s.idig ∧ t.ddig = s.ddig) ∧
    (i = .incInt ∨ i = .decInt → t.ddig = s.ddig) ∧
    ((∀ p d, i ≠ .tonePlay p d) → i ≠ .tonePoll → t.tAct = s.tAct) ∧
    ((∀ p d, i ≠ .tonePlay p d) → t.tEnd = s.tEnd ∧ t.tPer = s.tPer) ∧
    (i ≠ .render → i ≠ .dispOverlay → i ≠ .dispBlank → t.disp = s.disp) ∧
    t.resets = s.resets ∧ t.host = s.host ∧ t.ticks = s.ticks ∧ t.input = s.input

/-- R36: `prev == filt` after reset, and after every command that finds it so. -/
def Obligations.LatchEquality : Prop :=
  State.reset.prev = State.reset.filt ∧
  ∀ (i : Instr) (s t : State), exec i s = .next t → s.prev = s.filt → t.prev = t.filt

/-- The invariant `Inv` (canonical display memory, `prev == filt`, only main-agent commands pending in the host, the end
of a flash pending only where it is due) is kept by every step of every kind: commands, deferred firings, host
operations, reset events. -/
def Obligations.EveryStepKeepsTheInvariant : Prop :=
  ∀ s t : State, Inv s → step s = .next t → Inv t

/-- The state after reset has the invariant. -/
def Obligations.ResetHasTheInvariant : Prop := Inv State.reset

/-! ### Steps, arrival order, ticks, reset (spec/20_memory.md, 60_exceptions.md, 70_reset_and_hazards.md) -/

/-- R56, R95: a step runs the decoded command on the state the word was presented in. That an event that presents no
word is a whole step is the model's choice, one event a step (assumption log 5). -/
def Obligations.StepRunsTheDecodedCommand : Prop :=
  ∀ (s s' : State) (w : CmdWord),
    (fetch s = .command w s' → step s = exec (decode w) s') ∧ (fetch s = .quiet s' → step s = .next s')

/-- R56 to R58: in arrival order, a presented word is executed; of a firing and an act of the main agent presented
together the TICK is executed first, and the act is still to come; with nothing presented nothing changes. -/
def Obligations.ArrivalOrderAndTheTie : Prop :=
  ∀ (s : State) (w : CmdWord) (raw : Nibble) (a : MainAct) (rest : List Instant), noTickDue s = true →
    (s.input = .present none (some (.command w)) :: rest → step s = exec (decode w) { s with input := rest }) ∧
    (s.ticks.enabled = true → s.input = .present (some raw) none :: rest →
      step s = exec (.tick raw) { s with input := rest }) ∧
    (s.ticks.enabled = true → s.input = .present (some raw) (some a) :: rest →
      step s = exec (.tick raw) { s with input := .present none (some a) :: rest }) ∧
    (s.input = .present none none :: rest → step s = .next { s with input := rest }) ∧
    (s.input = [] → step s = .next s)

/-- R59, R224: a firing that falls due while the tick source is suppressed is deferred with its sample and executed
when the source is enabled again, the oldest first, before anything else presented. That the deferred firings queue
without bound, in this order, is the model's choice (assumption log 6), and so is the one flag that opening and closing a
section writes (assumption log 17). -/
def Obligations.SuppressedTicksAreDeferred : Prop :=
  (∀ (s : State) (raw : Nibble) (a : Option MainAct) (rest : List Instant), s.ticks.enabled = false →
    s.input = .present (some raw) a :: rest → ∃ t : State, step s = .next t ∧
      t = { s with
        input := t.input, ticks := { enabled := false, held := s.ticks.held ++ [raw] } } ∧
      (a = none → t.input = rest) ∧ (∀ act, a = some act → t.input = .present none (some act) :: rest)) ∧
  (∀ (s : State) (raw : Nibble) (more : List Nibble), s.ticks.enabled = true → s.ticks.held = raw :: more →
    step s = exec (.tick raw) { s with ticks := { enabled := true, held := more } }) ∧
  ∀ (s : State) (rest : List Instant), noTickDue s = true →
    (s.input = .present none (some .suppressTicks) :: rest →
      step s = .next { s with input := rest, ticks := { s.ticks with enabled := false } }) ∧
    (s.input = .present none (some .resumeTicks) :: rest →
      step s = .next { s with input := rest, ticks := { s.ticks with enabled := true } })

/-- R240: the reset event sets every block register to its reset value, whatever the state; `DISP` reads as two
bytes that depend on nothing but the reset. That the host and the tick source restart with the block and that input
still to come stays is the model's choice (assumption log 10). -/
def Obligations.ResetEventInstallsTheResetValues : Prop :=
  ∀ (s : State) (rest : List Instant), noTickDue s = true → s.input = .reset :: rest →
    step s = .next { State.reset with resets := s.resets + 1, input := rest }

/-- R20 (with R241 for the host): the reset values. `DISP` is unspecified there; here each of its bytes is the free
value `Config.dispAtReset`, about which nothing can be proved. -/
def Obligations.ResetValues : Prop :=
  (∀ k : Channel, State.reset.hist.get k = 0xFF#8) ∧ State.reset.filt = 0b1111#4 ∧ State.reset.prev = 0b1111#4 ∧
  State.reset.edge = 0b0000#4 ∧ State.reset.idig = 0 ∧ State.reset.ddig = 0 ∧ State.reset.now = 0#32 ∧
  State.reset.tAct = false ∧ State.reset.tEnd = 0#32 ∧ State.reset.tPer = 0#16 ∧
  (∀ a, a < 2 → memRead .disp a State.reset = .ok (Config.dispAtReset 0 a)) ∧
  State.reset.host.dstate = .idle ∧ State.reset.host.phase = .none

/-- The host interface `withFetchWord` presents a word so that the very next step executes it; nothing else of the
state is touched but the deferred firings, which are taken away exactly where one would go before the word (the
model's choice, assumption log 5). -/
def Obligations.WithFetchWordRunsTheWord : Prop :=
  ∀ (s : State) (n : Nat), n < 2 ^ 36 →
    decodeTableWord 40 n = some (decode (BitVec.ofNat 36 n)) ∧
    (noTickDue s = true → step (s.withFetchWord 40 n) = exec (decode (BitVec.ofNat 36 n)) s) ∧
    (noTickDue s = false → step (s.withFetchWord 40 n) =
      exec (decode (BitVec.ofNat 36 n)) { s with ticks := { s.ticks with held := [] } })

/-! ### The reference host (spec/45_error_flash_overlay_host.md, 46_dispatcher_host.md) -/

/-- R190: with nothing left to do the host begins an iteration with TONE_POLL, then the overlay poll, then the
Dispatcher; an operation that issues a command executes that command on the block. -/
def Obligations.HostIterationAndIssue : Prop :=
  ∀ (s : State) (i : Instr) (more : List HostOp) (rest : List Instant), noTickDue s = true →
    s.input = hostInstant :: rest →
    (s.host.todo = [] → step s =
      exec .tonePoll { s with input := rest, host := { s.host with todo := [.overlayPoll, .dispatch] } }) ∧
    (s.host.todo = .issue i :: more → step s =
      exec i { s with input := rest, host := { s.host with todo := more } })

/-- R189 (R182 to R188): the transition table of the Dispatcher. A row's commands and its next `dstate` become the
host's next operations; the last clause is the assignment of the next `dstate`. -/
def Obligations.DispatcherTransitionTable : Prop :=
  ∀ (s : State) (more : List HostOp) (rest : List Instant), noTickDue s = true → s.input = hostInstant :: rest →
    (s.host.todo = .dispatch :: more →
      ∃ t : State, step s = .next t ∧ t = { s with input := rest, host := t.host } ∧
        t.host.phase = s.host.phase ∧ t.host.deadline = s.host.deadline ∧ t.host.cycles = s.host.cycles ∧
        (s.host.dstate = .idle → t.host.todo = more ∧
          (s.host.phase ≠ .none → t.host.dstate = .idle) ∧
          (s.host.phase = .none →
            (s.edge.getLsbD 0 = true → t.host.dstate = .incInt) ∧
            (s.edge.getLsbD 0 = false → s.edge.getLsbD 1 = true → t.host.dstate = .decInt) ∧
            (s.edge.getLsbD 0 = false → s.edge.getLsbD 1 = false → s.edge.getLsbD 2 = true →
              t.host.dstate = .incDec) ∧
            (s.edge.getLsbD 0 = false → s.edge.getLsbD 1 = false → s.edge.getLsbD 2 = false →
              s.edge.getLsbD 3 = true → t.host.dstate = .decDec) ∧
            (s.edge = 0b0000#4 → t.host.dstate = .idle))) ∧
        (s.host.dstate = .incInt → t.host.dstate = .incInt ∧ t.host.todo =
          (if s.idig.val < 9 then [.issue .incInt, .issue (presetInstr .inc), .goto .update]
           else [.overlayStart, .goto .errorFlash]) ++ more) ∧
        (s.host.dstate = .decInt → t.host.dstate = .decInt ∧ t.host.todo =
          (if s.idig.val > 0 then [.issue .decInt, .issue (presetInstr .dec), .goto .update]
           else [.overlayStart, .goto .errorFlash]) ++ more) ∧
        (s.host.dstate = .incDec → t.host.dstate = .incDec ∧ t.host.todo =
          (if s.idig.val = 9 ∧ s.ddig.val = 9 then [.overlayStart, .goto .errorFlash]
           else [.issue .incDec, .issue (presetInstr .inc), .goto .update]) ++ more) ∧
        (s.host.dstate = .decDec → t.host.dstate = .decDec ∧ t.host.todo =
          (if s.idig.val = 0 ∧ s.ddig.val = 0 then [.overlayStart, .goto .errorFlash]
           else [.issue .decDec, .issue (presetInstr .dec), .goto .update]) ++ more) ∧
        (s.host.dstate = .errorFlash → t.host.todo = more ∧
          t.host.dstate = (if s.host.phase = .none then .update else .errorFlash)) ∧
        (s.host.dstate = .update → t.host.dstate = .update ∧
          t.host.todo = [.issue .render, .issue .edgeClr, .goto .idle] ++ more)) ∧
    (∀ d, s.host.todo = .goto d :: more →
      step s = .next { s with input := rest, host := { s.host with todo := more, dstate := d } })

/-- R162: `overlay.start()` from NONE enters ON with a deadline 100 ms on, no cycle completed, and TONE_ERR and
DISP_OVERLAY as the next commands; from ON or OFF it does nothing. -/
def Obligations.OverlayStartResult : Prop :=
  ∀ (s : State) (more : List HostOp) (rest : List Instant), noTickDue s = true → s.input = hostInstant :: rest →
    s.host.todo = .overlayStart :: more →
    (s.host.phase = .none → step s = .next { s with
      input := rest
      host := { s.host with
        phase := .on, deadline := s.now + 100#32, cycles := 0
        todo := [.issue (.tonePlay Config.perErr 80#16), .issue .dispOverlay] ++ more } }) ∧
    (s.host.phase ≠ .none → step s = .next { s with input := rest, host := { s.host with todo := more } })

/-- R163 to R165: the overlay poll in each phase, and the two deadline tests with what follows an expiry. -/
def Obligations.OverlayPollResult : Prop :=
  ∀ (s : State) (more : List HostOp) (rest : List Instant), noTickDue s = true → s.input = hostInstant :: rest →
    (s.host.todo = .overlayPoll :: more → step s = .next { s with
      input := rest
      host := { s.host with
        todo := (match s.host.phase with
          | .none => []
          | .on => [.issue .dispOverlay, .overlayOnCheck]
          | .off => [.issue .dispBlank, .overlayOffCheck]) ++ more } }) ∧
    (s.host.todo = .overlayOnCheck :: more → s.host.phase = .on → step s = .next (
      if reached s.now s.host.deadline then { s with
        input := rest
        host := { s.host with phase := .off, deadline := s.now + 100#32, todo := more } }
      else { s with input := rest, host := { s.host with todo := more } })) ∧
    (s.host.todo = .overlayOffCheck :: more → s.host.phase = .off → reached s.now s.host.deadline = false →
      step s = .next { s with input := rest, host := { s.host with todo := more } }) ∧
    (s.host.todo = .overlayOffCheck :: more → s.host.phase = .off → reached s.now s.host.deadline = true →
      s.host.cycles.val < 2 → ∃ c : Fin 4, c.val = s.host.cycles.val + 1 ∧ step s = .next { s with
        input := rest
        host := { s.host with
          phase := .on, deadline := s.now + 100#32, cycles := c
          todo := .issue (.tonePlay Config.perErr 80#16) :: more } }) ∧
    (s.host.todo = .overlayOffCheck :: more → s.host.phase = .off → reached s.now s.host.deadline = true →
      2 ≤ s.host.cycles.val → step s = .next { s with
        input := rest, host := { s.host with cycles := 3, todo := .issue .render :: .endFlash :: more } }) ∧
    (s.host.todo = .endFlash :: more →
      step s = .next { s with input := rest, host := { s.host with phase := .none, todo := more } })

/-- R166: over every step of every kind, the phase becomes ON only from NONE with no cycle completed, or from OFF
with the deadline reached and one more cycle, still below 3; it becomes OFF only from ON with the deadline reached;
and each new phase has a deadline 100 ms on. The third cycle completes only in OFF with the deadline reached and two
cycles completed before. Under the invariant (`Inv`, kept by every step: EveryStepKeepsTheInvariant), the phase becomes
NONE only from OFF with the third cycle complete, or by a reset event, which restarts the host as the model's choice
(assumption log 10). That a new deadline is counted from the very sample of `now_o` that the test read, and that the end
of a flash is an operation of its own after the last RENDER, is the model's choice (assumption log 8). -/
def Obligations.FlashPhaseOrder : Prop :=
  ∀ s t : State, step s = .next t →
    (t.host.phase = .on → s.host.phase ≠ .on →
      t.host.deadline = s.now + 100#32 ∧
      ((s.host.phase = .none ∧ t.host.cycles = 0) ∨
        (s.host.phase = .off ∧ reached s.now s.host.deadline = true ∧
          t.host.cycles.val = s.host.cycles.val + 1 ∧ t.host.cycles.val < 3))) ∧
    (t.host.phase = .off → s.host.phase ≠ .off →
      s.host.phase = .on ∧ reached s.now s.host.deadline = true ∧ t.host.deadline = s.now + 100#32) ∧
    (t.host.cycles.val = 3 → s.host.cycles.val ≠ 3 →
      s.host.phase = .off ∧ t.host.phase = .off ∧ reached s.now s.host.deadline = true ∧ s.host.cycles.val = 2) ∧
    (Inv s → t.host.phase = .none → s.host.phase ≠ .none →
      (s.host.phase = .off ∧ s.host.cycles.val = 3) ∨
        (noTickDue s = true ∧ ∃ rest, s.input = .reset :: rest ∧
          t = { State.reset with resets := s.resets + 1, input := rest }))

/-- R243: from any state that is about to boot with the tick source off, three host turns set the host's own state,
RENDER, and enable the tick source, and leave the main loop to begin. That the source is off at reset (assumption log 7),
and that boot step 3 writes the flag critical sections write (assumption log 17), is the model's choice. -/
def Obligations.BootSequenceResult : Prop :=
  ∀ (s : State) (rest : List Instant), s.host.todo = bootSequence → s.ticks.enabled = false →
    s.input = hostInstant :: hostInstant :: hostInstant :: rest →
    ∃ a b t : State, step s = .next a ∧ step a = .next b ∧ step b = .next t ∧
      t.host.dstate = .idle ∧ t.host.phase = .none ∧ t.host.todo = [] ∧ t.ticks.enabled = true ∧
      dispO t = (Config.segLut s.idig, Config.segLut s.ddig) ∧
      t.host.deadline = s.host.deadline ∧ t.host.cycles = s.host.cycles ∧
      t = { s with host := t.host, ticks := { s.ticks with enabled := true }, disp := t.disp, input := rest }

/-- R13, R77: under the premise on the stream (the words of its own that the main agent presents are commands it may
issue) and the invariant, every word the main agent puts on `cmd`, the reference host's included, is a command it may
issue: never TICK and never a reserved word. -/
def Obligations.MainAgentPresentsOnlyItsOwnCommands : Prop :=
  ∀ (s s' : State) (a : MainAct) (rest : List Instant) (w : CmdWord), Inv s → respectsIssuers s.input = true →
    noTickDue s = true → s.input = .present none (some a) :: rest → fetch s = .command w s' →
    mainMayIssue (decode w) = true

/-- R126, R250: where the reference host alone drives the block, every step keeps that a counter command is only ever
its very next operation and is pre-checked, TICKs and resets in between included. -/
def Obligations.HostPreChecksEveryCounterCommand : Prop :=
  ∀ s t : State, hostGuarded s = true → step s = .next t → hostGuarded t = true

/-- The state after reset, with any input of host turns, firings, critical sections and resets, is so guarded. -/
def Obligations.ResetIsGuarded : Prop :=
  ∀ l : List Instant, onlyHostActs l = true → hostGuarded { State.reset with input := l } = true

/-- R250, R125: an INC_DEC or DEC_DEC that a guarded host issues never loses a carry or a borrow: the value goes up
or down by exactly 1. -/
def Obligations.GuardedHostNeverLosesACarry : Prop :=
  ∀ (s t : State) (more : List HostOp) (rest : List Instant), hostGuarded s = true → noTickDue s = true →
    s.input = hostInstant :: rest → step s = .next t →
    (s.host.todo = .issue .incDec :: more → counterValue t = counterValue s + 1) ∧
    (s.host.todo = .issue .decDec :: more → counterValue t + 1 = counterValue s)

/-! ### Ports and the assembler -/

/-- R251: four pieces of `now_o` taken in one state join to the count; with a TICK between the pieces they need not:
from 250 to 260 they read as 0x000001FA or 0x00000004. -/
def Obligations.PiecewiseReadOfNowCanTear : Prop :=
  (∀ s : State, joinPieces (nowPiece 3 s) (nowPiece 2 s) (nowPiece 1 s) (nowPiece 0 s) = nowO s) ∧
  ∀ (s t : State) (raw : Nibble), s.now = 250#32 → exec (.tick raw) s = .next t →
    joinPieces (nowPiece 3 t) (nowPiece 2 t) (nowPiece 1 t) (nowPiece 0 s) = 0x000001FA#32 ∧
    joinPieces (nowPiece 3 s) (nowPiece 2 s) (nowPiece 1 s) (nowPiece 0 t) = 0x00000004#32

/-- R81: `TICKS n, raw` stands for n consecutive TICKs of that sample: it completes from every state and adds 10 n
to `now` modulo 2^32. -/
def Obligations.TicksStandsForRepeatedTicks : Prop :=
  ∀ (n raw : Nat) (s : State), raw < 16 →
    expand (.ticks n raw) = List.replicate n (.tick (BitVec.ofNat 4 raw)) ∧
    ∃ t : State, runInstrs (expand (.ticks n raw)) s = .next t ∧ t.now.toNat = (s.now.toNat + 10 * n) % 2 ^ 32
end

