-- ==== Sys2Proof/Laws/State.lean ====
section
/-! SUPPORT. One lemma per field per update of the state, each true by rfl, so that no later proof unfolds a record
update. -/

namespace Sys2Proof.Machine

variable (s : State)

/-! ### setHist -/

@[simp] theorem State.setHist_hist (v : Histories) : (s.setHist v).hist = v := rfl
@[simp] theorem State.setHist_filt (v : Histories) : (s.setHist v).filt = s.filt := rfl
@[simp] theorem State.setHist_prev (v : Histories) : (s.setHist v).prev = s.prev := rfl
@[simp] theorem State.setHist_edge (v : Histories) : (s.setHist v).edge = s.edge := rfl
@[simp] theorem State.setHist_idig (v : Histories) : (s.setHist v).idig = s.idig := rfl
@[simp] theorem State.setHist_ddig (v : Histories) : (s.setHist v).ddig = s.ddig := rfl
@[simp] theorem State.setHist_now (v : Histories) : (s.setHist v).now = s.now := rfl
@[simp] theorem State.setHist_tAct (v : Histories) : (s.setHist v).tAct = s.tAct := rfl
@[simp] theorem State.setHist_tEnd (v : Histories) : (s.setHist v).tEnd = s.tEnd := rfl
@[simp] theorem State.setHist_tPer (v : Histories) : (s.setHist v).tPer = s.tPer := rfl
@[simp] theorem State.setHist_disp (v : Histories) : (s.setHist v).disp = s.disp := rfl
@[simp] theorem State.setHist_resets (v : Histories) : (s.setHist v).resets = s.resets := rfl
@[simp] theorem State.setHist_host (v : Histories) : (s.setHist v).host = s.host := rfl
@[simp] theorem State.setHist_ticks (v : Histories) : (s.setHist v).ticks = s.ticks := rfl
@[simp] theorem State.setHist_input (v : Histories) : (s.setHist v).input = s.input := rfl

/-! ### setFilt -/

@[simp] theorem State.setFilt_hist (v : Nibble) : (s.setFilt v).hist = s.hist := rfl
@[simp] theorem State.setFilt_filt (v : Nibble) : (s.setFilt v).filt = v := rfl
@[simp] theorem State.setFilt_prev (v : Nibble) : (s.setFilt v).prev = s.prev := rfl
@[simp] theorem State.setFilt_edge (v : Nibble) : (s.setFilt v).edge = s.edge := rfl
@[simp] theorem State.setFilt_idig (v : Nibble) : (s.setFilt v).idig = s.idig := rfl
@[simp] theorem State.setFilt_ddig (v : Nibble) : (s.setFilt v).ddig = s.ddig := rfl
@[simp] theorem State.setFilt_now (v : Nibble) : (s.setFilt v).now = s.now := rfl
@[simp] theorem State.setFilt_tAct (v : Nibble) : (s.setFilt v).tAct = s.tAct := rfl
@[simp] theorem State.setFilt_tEnd (v : Nibble) : (s.setFilt v).tEnd = s.tEnd := rfl
@[simp] theorem State.setFilt_tPer (v : Nibble) : (s.setFilt v).tPer = s.tPer := rfl
@[simp] theorem State.setFilt_disp (v : Nibble) : (s.setFilt v).disp = s.disp := rfl
@[simp] theorem State.setFilt_resets (v : Nibble) : (s.setFilt v).resets = s.resets := rfl
@[simp] theorem State.setFilt_host (v : Nibble) : (s.setFilt v).host = s.host := rfl
@[simp] theorem State.setFilt_ticks (v : Nibble) : (s.setFilt v).ticks = s.ticks := rfl
@[simp] theorem State.setFilt_input (v : Nibble) : (s.setFilt v).input = s.input := rfl

/-! ### setPrev -/

@[simp] theorem State.setPrev_hist (v : Nibble) : (s.setPrev v).hist = s.hist := rfl
@[simp] theorem State.setPrev_filt (v : Nibble) : (s.setPrev v).filt = s.filt := rfl
@[simp] theorem State.setPrev_prev (v : Nibble) : (s.setPrev v).prev = v := rfl
@[simp] theorem State.setPrev_edge (v : Nibble) : (s.setPrev v).edge = s.edge := rfl
@[simp] theorem State.setPrev_idig (v : Nibble) : (s.setPrev v).idig = s.idig := rfl
@[simp] theorem State.setPrev_ddig (v : Nibble) : (s.setPrev v).ddig = s.ddig := rfl
@[simp] theorem State.setPrev_now (v : Nibble) : (s.setPrev v).now = s.now := rfl
@[simp] theorem State.setPrev_tAct (v : Nibble) : (s.setPrev v).tAct = s.tAct := rfl
@[simp] theorem State.setPrev_tEnd (v : Nibble) : (s.setPrev v).tEnd = s.tEnd := rfl
@[simp] theorem State.setPrev_tPer (v : Nibble) : (s.setPrev v).tPer = s.tPer := rfl
@[simp] theorem State.setPrev_disp (v : Nibble) : (s.setPrev v).disp = s.disp := rfl
@[simp] theorem State.setPrev_resets (v : Nibble) : (s.setPrev v).resets = s.resets := rfl
@[simp] theorem State.setPrev_host (v : Nibble) : (s.setPrev v).host = s.host := rfl
@[simp] theorem State.setPrev_ticks (v : Nibble) : (s.setPrev v).ticks = s.ticks := rfl
@[simp] theorem State.setPrev_input (v : Nibble) : (s.setPrev v).input = s.input := rfl

/-! ### setEdge -/

@[simp] theorem State.setEdge_hist (v : Nibble) : (s.setEdge v).hist = s.hist := rfl
@[simp] theorem State.setEdge_filt (v : Nibble) : (s.setEdge v).filt = s.filt := rfl
@[simp] theorem State.setEdge_prev (v : Nibble) : (s.setEdge v).prev = s.prev := rfl
@[simp] theorem State.setEdge_edge (v : Nibble) : (s.setEdge v).edge = v := rfl
@[simp] theorem State.setEdge_idig (v : Nibble) : (s.setEdge v).idig = s.idig := rfl
@[simp] theorem State.setEdge_ddig (v : Nibble) : (s.setEdge v).ddig = s.ddig := rfl
@[simp] theorem State.setEdge_now (v : Nibble) : (s.setEdge v).now = s.now := rfl
@[simp] theorem State.setEdge_tAct (v : Nibble) : (s.setEdge v).tAct = s.tAct := rfl
@[simp] theorem State.setEdge_tEnd (v : Nibble) : (s.setEdge v).tEnd = s.tEnd := rfl
@[simp] theorem State.setEdge_tPer (v : Nibble) : (s.setEdge v).tPer = s.tPer := rfl
@[simp] theorem State.setEdge_disp (v : Nibble) : (s.setEdge v).disp = s.disp := rfl
@[simp] theorem State.setEdge_resets (v : Nibble) : (s.setEdge v).resets = s.resets := rfl
@[simp] theorem State.setEdge_host (v : Nibble) : (s.setEdge v).host = s.host := rfl
@[simp] theorem State.setEdge_ticks (v : Nibble) : (s.setEdge v).ticks = s.ticks := rfl
@[simp] theorem State.setEdge_input (v : Nibble) : (s.setEdge v).input = s.input := rfl

/-! ### setDigits -/

@[simp] theorem State.setDigits_hist (i d : Digit) : (s.setDigits i d).hist = s.hist := rfl
@[simp] theorem State.setDigits_filt (i d : Digit) : (s.setDigits i d).filt = s.filt := rfl
@[simp] theorem State.setDigits_prev (i d : Digit) : (s.setDigits i d).prev = s.prev := rfl
@[simp] theorem State.setDigits_edge (i d : Digit) : (s.setDigits i d).edge = s.edge := rfl
@[simp] theorem State.setDigits_idig (i d : Digit) : (s.setDigits i d).idig = i := rfl
@[simp] theorem State.setDigits_ddig (i d : Digit) : (s.setDigits i d).ddig = d := rfl
@[simp] theorem State.setDigits_now (i d : Digit) : (s.setDigits i d).now = s.now := rfl
@[simp] theorem State.setDigits_tAct (i d : Digit) : (s.setDigits i d).tAct = s.tAct := rfl
@[simp] theorem State.setDigits_tEnd (i d : Digit) : (s.setDigits i d).tEnd = s.tEnd := rfl
@[simp] theorem State.setDigits_tPer (i d : Digit) : (s.setDigits i d).tPer = s.tPer := rfl
@[simp] theorem State.setDigits_disp (i d : Digit) : (s.setDigits i d).disp = s.disp := rfl
@[simp] theorem State.setDigits_resets (i d : Digit) : (s.setDigits i d).resets = s.resets := rfl
@[simp] theorem State.setDigits_host (i d : Digit) : (s.setDigits i d).host = s.host := rfl
@[simp] theorem State.setDigits_ticks (i d : Digit) : (s.setDigits i d).ticks = s.ticks := rfl
@[simp] theorem State.setDigits_input (i d : Digit) : (s.setDigits i d).input = s.input := rfl

/-! ### setNow -/

@[simp] theorem State.setNow_hist (v : Ms) : (s.setNow v).hist = s.hist := rfl
@[simp] theorem State.setNow_filt (v : Ms) : (s.setNow v).filt = s.filt := rfl
@[simp] theorem State.setNow_prev (v : Ms) : (s.setNow v).prev = s.prev := rfl
@[simp] theorem State.setNow_edge (v : Ms) : (s.setNow v).edge = s.edge := rfl
@[simp] theorem State.setNow_idig (v : Ms) : (s.setNow v).idig = s.idig := rfl
@[simp] theorem State.setNow_ddig (v : Ms) : (s.setNow v).ddig = s.ddig := rfl
@[simp] theorem State.setNow_now (v : Ms) : (s.setNow v).now = v := rfl
@[simp] theorem State.setNow_tAct (v : Ms) : (s.setNow v).tAct = s.tAct := rfl
@[simp] theorem State.setNow_tEnd (v : Ms) : (s.setNow v).tEnd = s.tEnd := rfl
@[simp] theorem State.setNow_tPer (v : Ms) : (s.setNow v).tPer = s.tPer := rfl
@[simp] theorem State.setNow_disp (v : Ms) : (s.setNow v).disp = s.disp := rfl
@[simp] theorem State.setNow_resets (v : Ms) : (s.setNow v).resets = s.resets := rfl
@[simp] theorem State.setNow_host (v : Ms) : (s.setNow v).host = s.host := rfl
@[simp] theorem State.setNow_ticks (v : Ms) : (s.setNow v).ticks = s.ticks := rfl
@[simp] theorem State.setNow_input (v : Ms) : (s.setNow v).input = s.input := rfl

/-! ### setToneActive -/

@[simp] theorem State.setToneActive_hist (v : Bool) : (s.setToneActive v).hist = s.hist := rfl
@[simp] theorem State.setToneActive_filt (v : Bool) : (s.setToneActive v).filt = s.filt := rfl
@[simp] theorem State.setToneActive_prev (v : Bool) : (s.setToneActive v).prev = s.prev := rfl
@[simp] theorem State.setToneActive_edge (v : Bool) : (s.setToneActive v).edge = s.edge := rfl
@[simp] theorem State.setToneActive_idig (v : Bool) : (s.setToneActive v).idig = s.idig := rfl
@[simp] theorem State.setToneActive_ddig (v : Bool) : (s.setToneActive v).ddig = s.ddig := rfl
@[simp] theorem State.setToneActive_now (v : Bool) : (s.setToneActive v).now = s.now := rfl
@[simp] theorem State.setToneActive_tAct (v : Bool) : (s.setToneActive v).tAct = v := rfl
@[simp] theorem State.setToneActive_tEnd (v : Bool) : (s.setToneActive v).tEnd = s.tEnd := rfl
@[simp] theorem State.setToneActive_tPer (v : Bool) : (s.setToneActive v).tPer = s.tPer := rfl
@[simp] theorem State.setToneActive_disp (v : Bool) : (s.setToneActive v).disp = s.disp := rfl
@[simp] theorem State.setToneActive_resets (v : Bool) : (s.setToneActive v).resets = s.resets := rfl
@[simp] theorem State.setToneActive_host (v : Bool) : (s.setToneActive v).host = s.host := rfl
@[simp] theorem State.setToneActive_ticks (v : Bool) : (s.setToneActive v).ticks = s.ticks := rfl
@[simp] theorem State.setToneActive_input (v : Bool) : (s.setToneActive v).input = s.input := rfl

/-! ### setTone -/

@[simp] theorem State.setTone_hist (a : Bool) (e : Ms) (p : Period) : (s.setTone a e p).hist = s.hist := rfl
@[simp] theorem State.setTone_filt (a : Bool) (e : Ms) (p : Period) : (s.setTone a e p).filt = s.filt := rfl
@[simp] theorem State.setTone_prev (a : Bool) (e : Ms) (p : Period) : (s.setTone a e p).prev = s.prev := rfl
@[simp] theorem State.setTone_edge (a : Bool) (e : Ms) (p : Period) : (s.setTone a e p).edge = s.edge := rfl
@[simp] theorem State.setTone_idig (a : Bool) (e : Ms) (p : Period) : (s.setTone a e p).idig = s.idig := rfl
@[simp] theorem State.setTone_ddig (a : Bool) (e : Ms) (p : Period) : (s.setTone a e p).ddig = s.ddig := rfl
@[simp] theorem State.setTone_now (a : Bool) (e : Ms) (p : Period) : (s.setTone a e p).now = s.now := rfl
@[simp] theorem State.setTone_tAct (a : Bool) (e : Ms) (p : Period) : (s.setTone a e p).tAct = a := rfl
@[simp] theorem State.setTone_tEnd (a : Bool) (e : Ms) (p : Period) : (s.setTone a e p).tEnd = e := rfl
@[simp] theorem State.setTone_tPer (a : Bool) (e : Ms) (p : Period) : (s.setTone a e p).tPer = p := rfl
@[simp] theorem State.setTone_disp (a : Bool) (e : Ms) (p : Period) : (s.setTone a e p).disp = s.disp := rfl
@[simp] theorem State.setTone_resets (a : Bool) (e : Ms) (p : Period) : (s.setTone a e p).resets = s.resets := rfl
@[simp] theorem State.setTone_host (a : Bool) (e : Ms) (p : Period) : (s.setTone a e p).host = s.host := rfl
@[simp] theorem State.setTone_ticks (a : Bool) (e : Ms) (p : Period) : (s.setTone a e p).ticks = s.ticks := rfl
@[simp] theorem State.setTone_input (a : Bool) (e : Ms) (p : Period) : (s.setTone a e p).input = s.input := rfl

/-! ### setDisp -/

@[simp] theorem State.setDisp_hist (m : Memory) : (s.setDisp m).hist = s.hist := rfl
@[simp] theorem State.setDisp_filt (m : Memory) : (s.setDisp m).filt = s.filt := rfl
@[simp] theorem State.setDisp_prev (m : Memory) : (s.setDisp m).prev = s.prev := rfl
@[simp] theorem State.setDisp_edge (m : Memory) : (s.setDisp m).edge = s.edge := rfl
@[simp] theorem State.setDisp_idig (m : Memory) : (s.setDisp m).idig = s.idig := rfl
@[simp] theorem State.setDisp_ddig (m : Memory) : (s.setDisp m).ddig = s.ddig := rfl
@[simp] theorem State.setDisp_now (m : Memory) : (s.setDisp m).now = s.now := rfl
@[simp] theorem State.setDisp_tAct (m : Memory) : (s.setDisp m).tAct = s.tAct := rfl
@[simp] theorem State.setDisp_tEnd (m : Memory) : (s.setDisp m).tEnd = s.tEnd := rfl
@[simp] theorem State.setDisp_tPer (m : Memory) : (s.setDisp m).tPer = s.tPer := rfl
@[simp] theorem State.setDisp_disp (m : Memory) : (s.setDisp m).disp = m := rfl
@[simp] theorem State.setDisp_resets (m : Memory) : (s.setDisp m).resets = s.resets := rfl
@[simp] theorem State.setDisp_host (m : Memory) : (s.setDisp m).host = s.host := rfl
@[simp] theorem State.setDisp_ticks (m : Memory) : (s.setDisp m).ticks = s.ticks := rfl
@[simp] theorem State.setDisp_input (m : Memory) : (s.setDisp m).input = s.input := rfl

/-! ### setHost -/

@[simp] theorem State.setHost_hist (h : HostState) : (s.setHost h).hist = s.hist := rfl
@[simp] theorem State.setHost_filt (h : HostState) : (s.setHost h).filt = s.filt := rfl
@[simp] theorem State.setHost_prev (h : HostState) : (s.setHost h).prev = s.prev := rfl
@[simp] theorem State.setHost_edge (h : HostState) : (s.setHost h).edge = s.edge := rfl
@[simp] theorem State.setHost_idig (h : HostState) : (s.setHost h).idig = s.idig := rfl
@[simp] theorem State.setHost_ddig (h : HostState) : (s.setHost h).ddig = s.ddig := rfl
@[simp] theorem State.setHost_now (h : HostState) : (s.setHost h).now = s.now := rfl
@[simp] theorem State.setHost_tAct (h : HostState) : (s.setHost h).tAct = s.tAct := rfl
@[simp] theorem State.setHost_tEnd (h : HostState) : (s.setHost h).tEnd = s.tEnd := rfl
@[simp] theorem State.setHost_tPer (h : HostState) : (s.setHost h).tPer = s.tPer := rfl
@[simp] theorem State.setHost_disp (h : HostState) : (s.setHost h).disp = s.disp := rfl
@[simp] theorem State.setHost_resets (h : HostState) : (s.setHost h).resets = s.resets := rfl
@[simp] theorem State.setHost_host (h : HostState) : (s.setHost h).host = h := rfl
@[simp] theorem State.setHost_ticks (h : HostState) : (s.setHost h).ticks = s.ticks := rfl
@[simp] theorem State.setHost_input (h : HostState) : (s.setHost h).input = s.input := rfl

/-! ### setTicks -/

@[simp] theorem State.setTicks_hist (t : TickSource) : (s.setTicks t).hist = s.hist := rfl
@[simp] theorem State.setTicks_filt (t : TickSource) : (s.setTicks t).filt = s.filt := rfl
@[simp] theorem State.setTicks_prev (t : TickSource) : (s.setTicks t).prev = s.prev := rfl
@[simp] theorem State.setTicks_edge (t : TickSource) : (s.setTicks t).edge = s.edge := rfl
@[simp] theorem State.setTicks_idig (t : TickSource) : (s.setTicks t).idig = s.idig := rfl
@[simp] theorem State.setTicks_ddig (t : TickSource) : (s.setTicks t).ddig = s.ddig := rfl
@[simp] theorem State.setTicks_now (t : TickSource) : (s.setTicks t).now = s.now := rfl
@[simp] theorem State.setTicks_tAct (t : TickSource) : (s.setTicks t).tAct = s.tAct := rfl
@[simp] theorem State.setTicks_tEnd (t : TickSource) : (s.setTicks t).tEnd = s.tEnd := rfl
@[simp] theorem State.setTicks_tPer (t : TickSource) : (s.setTicks t).tPer = s.tPer := rfl
@[simp] theorem State.setTicks_disp (t : TickSource) : (s.setTicks t).disp = s.disp := rfl
@[simp] theorem State.setTicks_resets (t : TickSource) : (s.setTicks t).resets = s.resets := rfl
@[simp] theorem State.setTicks_host (t : TickSource) : (s.setTicks t).host = s.host := rfl
@[simp] theorem State.setTicks_ticks (t : TickSource) : (s.setTicks t).ticks = t := rfl
@[simp] theorem State.setTicks_input (t : TickSource) : (s.setTicks t).input = s.input := rfl

/-! ### setInput -/

@[simp] theorem State.setInput_hist (l : List Instant) : (s.setInput l).hist = s.hist := rfl
@[simp] theorem State.setInput_filt (l : List Instant) : (s.setInput l).filt = s.filt := rfl
@[simp] theorem State.setInput_prev (l : List Instant) : (s.setInput l).prev = s.prev := rfl
@[simp] theorem State.setInput_edge (l : List Instant) : (s.setInput l).edge = s.edge := rfl
@[simp] theorem State.setInput_idig (l : List Instant) : (s.setInput l).idig = s.idig := rfl
@[simp] theorem State.setInput_ddig (l : List Instant) : (s.setInput l).ddig = s.ddig := rfl
@[simp] theorem State.setInput_now (l : List Instant) : (s.setInput l).now = s.now := rfl
@[simp] theorem State.setInput_tAct (l : List Instant) : (s.setInput l).tAct = s.tAct := rfl
@[simp] theorem State.setInput_tEnd (l : List Instant) : (s.setInput l).tEnd = s.tEnd := rfl
@[simp] theorem State.setInput_tPer (l : List Instant) : (s.setInput l).tPer = s.tPer := rfl
@[simp] theorem State.setInput_disp (l : List Instant) : (s.setInput l).disp = s.disp := rfl
@[simp] theorem State.setInput_resets (l : List Instant) : (s.setInput l).resets = s.resets := rfl
@[simp] theorem State.setInput_host (l : List Instant) : (s.setInput l).host = s.host := rfl
@[simp] theorem State.setInput_ticks (l : List Instant) : (s.setInput l).ticks = s.ticks := rfl
@[simp] theorem State.setInput_input (l : List Instant) : (s.setInput l).input = l := rfl

end Sys2Proof.Machine
end

