-- ==== Sys2Proof/Laws/Memory.lean ====
section
/-! SUPPORT. The laws of the display memory: a byte reads as it was written, a write leaves every other byte alone,
every operation keeps the canonical form, and canonical memories that read alike are equal. -/

namespace Sys2Proof.Machine

/-! ### Reads after writes -/

theorem Memory.read_insert (n : Nat) (m : Memory) (a b : Nat) (v : Byte) :
    Memory.read n (Memory.insert m a v) b = if b = a then v else Memory.read n m b := by
  induction m with
  | nil => by_cases h : a = b <;> simp [Memory.insert, Memory.read, h, eq_comm]
  | cons c rest ih =>
    obtain ⟨c, w⟩ := c
    rcases lt_trichotomy a c with h1 | h1 | h1
    · by_cases h : a = b
      · subst h; simp [Memory.insert, Memory.read, h1]
      · simp [Memory.insert, Memory.read, h1, h, Ne.symm h]
    · subst h1
      by_cases h : a = b
      · simp [Memory.insert, Memory.read, h]
      · simp [Memory.insert, Memory.read, h, Ne.symm h]
    · have h2 : ¬a < c := by omega
      have h3 : ¬a = c := by omega
      by_cases h : c = b
      · subst h; simp [Memory.insert, Memory.read, h2, h3, Ne.symm h3]
      · simp [Memory.insert, Memory.read, h2, h3, h, ih]

theorem Memory.read_erase (n : Nat) (m : Memory) (a b : Nat) :
    Memory.read n (Memory.erase m a) b = if b = a then Memory.unlisted n b else Memory.read n m b := by
  induction m with
  | nil => simp [Memory.erase, Memory.read]
  | cons c rest ih =>
    obtain ⟨c, w⟩ := c
    by_cases h1 : c = a
    · by_cases h2 : b = a
      · subst h2; simpa [Memory.erase, h1] using ih
      · have h3 : ¬a = b := fun h => h2 h.symm
        simp [Memory.erase, Memory.read, h1, ih, h2, h3]
    · by_cases h2 : c = b
      · subst h2; simp [Memory.erase, Memory.read, h1]
      · simp [Memory.erase, Memory.read, h1, h2, ih]

/-- Reading after a write: the byte written at its address, every other byte as before. -/
@[simp] theorem Memory.read_write (n : Nat) (m : Memory) (a b : Nat) (v : Byte) :
    Memory.read n (Memory.write n m a v) b = if b = a then v else Memory.read n m b := by
  unfold Memory.write
  split_ifs with h1 h2
  · rw [Memory.read_erase, if_pos h2, h1, h2]
  · rw [Memory.read_erase, if_neg h2]
  · rw [Memory.read_insert, if_pos ‹_›]
  · rw [Memory.read_insert, if_neg ‹_›]

/-! ### The canonical form -/

theorem Memory.risesFrom_mono {lo lo' : Nat} {m : Memory} (h : Memory.risesFrom lo m = true) (hl : lo' ≤ lo) :
    Memory.risesFrom lo' m = true := by
  cases m with
  | nil => rfl
  | cons c rest =>
    simp only [Memory.risesFrom, Bool.and_eq_true, decide_eq_true_eq] at h ⊢
    exact ⟨by omega, h.2⟩

theorem Memory.risesFrom_insert {lo a : Nat} {m : Memory} {v : Byte} (h : Memory.risesFrom lo m = true)
    (ha : lo ≤ a) : Memory.risesFrom lo (Memory.insert m a v) = true := by
  induction m generalizing lo with
  | nil => simp [Memory.insert, Memory.risesFrom, ha]
  | cons c rest ih =>
    obtain ⟨c, w⟩ := c
    simp only [Memory.risesFrom, Bool.and_eq_true, decide_eq_true_eq] at h
    simp only [Memory.insert]
    split_ifs with h1 h2
    · simp [Memory.risesFrom, ha, h.2, Nat.succ_le_of_lt h1]
    · subst h2
      simp [Memory.risesFrom, ha, h.2]
    · simp only [Memory.risesFrom, Bool.and_eq_true, decide_eq_true_eq]
      exact ⟨h.1, ih h.2 (by omega)⟩

theorem Memory.risesFrom_erase {lo a : Nat} {m : Memory} (h : Memory.risesFrom lo m = true) :
    Memory.risesFrom lo (Memory.erase m a) = true := by
  induction m generalizing lo with
  | nil => rfl
  | cons c rest ih =>
    obtain ⟨c, w⟩ := c
    simp only [Memory.risesFrom, Bool.and_eq_true, decide_eq_true_eq] at h
    simp only [Memory.erase]
    split_ifs
    · exact Memory.risesFrom_mono (ih h.2) (by omega)
    · simp only [Memory.risesFrom, Bool.and_eq_true, decide_eq_true_eq]
      exact ⟨h.1, ih h.2⟩

theorem Memory.mem_insert {m : Memory} {a : Nat} {v : Byte} {c : Host.Cell} (h : c ∈ Memory.insert m a v) :
    c = (a, v) ∨ c ∈ m := by
  induction m with
  | nil => simpa [Memory.insert] using h
  | cons d rest ih =>
    obtain ⟨d, w⟩ := d
    simp only [Memory.insert] at h
    split_ifs at h
    · simpa using h
    · rcases List.mem_cons.1 h with h | h
      · exact .inl h
      · exact .inr (List.mem_cons_of_mem _ h)
    · rcases List.mem_cons.1 h with h | h
      · exact .inr (by simp [h])
      · exact (ih h).imp_right (List.mem_cons_of_mem _)

theorem Memory.mem_erase {m : Memory} {a : Nat} {c : Host.Cell} (h : c ∈ Memory.erase m a) : c ∈ m := by
  induction m with
  | nil => simp [Memory.erase] at h
  | cons d rest ih =>
    obtain ⟨d, w⟩ := d
    simp only [Memory.erase] at h
    split_ifs at h
    · exact List.mem_cons_of_mem _ (ih h)
    · rcases List.mem_cons.1 h with h | h
      · simp [h]
      · exact List.mem_cons_of_mem _ (ih h)

theorem Memory.wf_iff (n : Nat) (m : Memory) :
    Memory.wf n m = true ↔
      Memory.risesFrom 0 m = true ∧ ∀ c ∈ m, c.1 < Config.dispN ∧ c.2 ≠ Memory.unlisted n c.1 := by
  simp [Memory.wf, List.all_eq_true]

theorem Memory.wf_nil (n : Nat) : Memory.wf n [] = true := rfl

/-- A write at an address of `DISP` keeps the canonical form. -/
theorem Memory.wf_write {n a : Nat} {m : Memory} {v : Byte} (h : Memory.wf n m = true) (ha : a < Config.dispN) :
    Memory.wf n (Memory.write n m a v) = true := by
  obtain ⟨hr, hc⟩ := (Memory.wf_iff n m).1 h
  rw [Memory.wf_iff]
  unfold Memory.write
  split_ifs with hv
  · exact ⟨Memory.risesFrom_erase hr, fun c hm => hc c (Memory.mem_erase hm)⟩
  · refine ⟨Memory.risesFrom_insert hr (Nat.zero_le a), fun c hm => ?_⟩
    rcases Memory.mem_insert hm with rfl | hm
    · exact ⟨ha, hv⟩
    · exact hc c hm

theorem Memory.read_below {n lo a : Nat} {m : Memory} (h : Memory.risesFrom lo m = true) (ha : a < lo) :
    Memory.read n m a = Memory.unlisted n a := by
  induction m generalizing lo with
  | nil => rfl
  | cons c rest ih =>
    obtain ⟨c, w⟩ := c
    simp only [Memory.risesFrom, Bool.and_eq_true, decide_eq_true_eq] at h
    have : ¬c = a := by omega
    simp only [Memory.read, this, if_false]
    exact ih h.2 (by omega)

theorem Memory.eq_of_read_from {n lo : Nat} {m m' : Memory} (h : Memory.risesFrom lo m = true)
    (h' : Memory.risesFrom lo m' = true) (hc : ∀ c ∈ m, c.2 ≠ Memory.unlisted n c.1)
    (hc' : ∀ c ∈ m', c.2 ≠ Memory.unlisted n c.1) (hr : ∀ a, Memory.read n m a = Memory.read n m' a) : m = m' := by
  induction m generalizing m' lo with
  | nil =>
    cases m' with
    | nil => rfl
    | cons d rest' =>
      have := hr d.1
      simp only [Memory.read, if_true] at this
      exact absurd this.symm (hc' d (by simp))
  | cons c rest ih =>
    obtain ⟨c, w⟩ := c
    simp only [Memory.risesFrom, Bool.and_eq_true, decide_eq_true_eq] at h
    cases m' with
    | nil =>
      have := hr c
      simp only [Memory.read, if_true] at this
      exact absurd this (hc (c, w) (by simp))
    | cons d rest' =>
      obtain ⟨d, x⟩ := d
      simp only [Memory.risesFrom, Bool.and_eq_true, decide_eq_true_eq] at h'
      have hcd : c = d := by
        rcases lt_trichotomy c d with hlt | heq | hgt
        · have h1 := hr c
          have hne : ¬d = c := by omega
          simp only [Memory.read, if_true, hne, if_false] at h1
          rw [Memory.read_below h'.2 (by omega)] at h1
          exact absurd h1 (hc (c, w) (by simp))
        · exact heq
        · have h1 := hr d
          have hne : ¬c = d := by omega
          simp only [Memory.read, if_true, hne, if_false] at h1
          rw [Memory.read_below h.2 (by omega)] at h1
          exact absurd h1.symm (hc' (d, x) (by simp))
      subst hcd
      have hw := hr c
      simp only [Memory.read, if_true] at hw
      subst hw
      have hrest : rest = rest' := by
        refine ih h.2 h'.2 (fun e he => hc e (by simp [he])) (fun e he => hc' e (by simp [he])) (fun a => ?_)
        by_cases hac : c = a
        · subst hac
          rw [Memory.read_below h.2 (by omega), Memory.read_below h'.2 (by omega)]
        · simpa [Memory.read, hac] using hr a
      rw [hrest]

/-- Equal memories are equal data: canonical memories that read alike are the same list. -/
theorem Memory.eq_of_read {n : Nat} {m m' : Memory} (h : Memory.wf n m = true) (h' : Memory.wf n m' = true)
    (hr : ∀ a, Memory.read n m a = Memory.read n m' a) : m = m' := by
  obtain ⟨h1, h2⟩ := (Memory.wf_iff n m).1 h
  obtain ⟨h1', h2'⟩ := (Memory.wf_iff n m').1 h'
  exact Memory.eq_of_read_from h1 h1' (fun c hc => (h2 c hc).2) (fun c hc => (h2' c hc).2) hr

/-! ### MemRead, MemWrite and the shared display write -/

theorem memRead_lut (d : Digit) (s : State) : memRead .lut d.val s = .ok (Config.segLut d) := by
  simp [memRead]

theorem memRead_disp (a : Nat) (s : State) :
    memRead .disp a s =
      if a < 2 then .ok (Memory.read s.resets s.disp a) else .error (.noSuchAddress .disp a) := rfl

theorem memWrite_ok {a : Nat} {v : Byte} {s : State} (ha : a < Config.dispN) :
    memWrite a v s = .ok (s.setDisp (Memory.write s.resets s.disp a v)) := by
  simp [memWrite, ha]

/-- All that writing both bytes of `DISP` does: it never faults, and only the display memory changes. -/
theorem writeDisplay_eq (b0 b1 : Byte) (s : State) :
    writeDisplay b0 b1 s =
      .ok (s.setDisp (Memory.write s.resets (Memory.write s.resets s.disp 0 b0) 1 b1)) := rfl

end Sys2Proof.Machine
end

