-- ==== Sys2Proof/Laws/Ops.lean ====
section
/-! SUPPORT. What each shared operation does, said once: single bits, the history file, the digits, the deadline test,
and what a TICK makes of each register. -/

namespace Sys2Proof.Machine

/-! ### Bits and histories -/

/-- Writing one bit of four: that bit reads as written, the others as before. -/
theorem getLsbD_setBit (v : Nibble) (k j : Channel) (b : Bool) :
    (setBit v k b).getLsbD j.val = if j = k then b else v.getLsbD j.val := by
  revert v k j b; decide

@[simp] theorem Histories.get_set (h : Histories) (k j : Channel) (v : Byte) :
    (h.set k v).get j = if j = k then v else h.get j := by
  match k, j with
  | 0, 0 | 0, 1 | 0, 2 | 0, 3 | 1, 0 | 1, 1 | 1, 2 | 1, 3 | 2, 0 | 2, 1 | 2, 2 | 2, 3 | 3, 0 | 3, 1 | 3, 2 | 3, 3 => rfl

/-- The shift moves every sample one place up and puts the new one at bit 0 (41_debounce_filter.md R101). -/
theorem getLsbD_shiftSample (h : Byte) (b : Bool) (j : Nat) :
    (shiftSample h b).getLsbD j = (decide (j < 8) && if j = 0 then b else h.getLsbD (j - 1)) := by
  cases b <;> rcases j with _ | j <;> simp [shiftSample, BitVec.getLsbD_shiftLeft, BitVec.getLsbD_one]

theorem getLsbD_newEdges (prev filt : Nibble) (k : Channel) :
    (newEdges prev filt).getLsbD k.val = (prev.getLsbD k.val && !filt.getLsbD k.val) := by
  simp [newEdges]

theorem rawBit_eq (raw : Nibble) (k : Channel) : rawBit raw k = raw.getLsbD k.val := rfl

/-! ### Digits -/

theorem digitUp_val (d : Digit) : (digitUp d).val = if d.val < 9 then d.val + 1 else d.val := by
  unfold digitUp; split <;> simp [*]

theorem digitDown_val (d : Digit) : (digitDown d).val = if 0 < d.val then d.val - 1 else d.val := by
  unfold digitDown; split <;> simp [*]

theorem digitCode_toNat (d : Digit) : (digitCode d).toNat = d.val := by
  simp [digitCode, Nat.mod_eq_of_lt (Nat.lt_trans d.isLt (by decide : 10 < 16))]

theorem countCycle_val (c : Fin 4) : (countCycle c).val = if c.val < 3 then c.val + 1 else c.val := by
  unfold countCycle; split <;> simp [*]

/-! ### The deadline test -/

theorem reached_iff (now d : Ms) : reached now d = true ↔ (now - d).toNat < 2 ^ 31 := by
  simp [reached]

/-! ### What a TICK makes of each register (40_tick_nop.md R90) -/

/-- The state a TICK ends in. -/
def afterTick (raw : Nibble) (s : State) : State := edgeStep (debounceAll raw (advanceNow s))

theorem execTick_eq (raw : Nibble) (s : State) : execTick raw s = .next (afterTick raw s) := rfl

@[simp] theorem debStep_hist (k j : Channel) (b : Bool) (s : State) :
    (debStep k b s).hist.get j = if j = k then shiftSample (s.hist.get j) b else s.hist.get j := by
  simp only [debStep, State.setFilt_hist, State.setHist_hist, Histories.get_set]
  split <;> simp [*]

theorem debStep_filt (k j : Channel) (b : Bool) (s : State) :
    (debStep k b s).filt.getLsbD j.val =
      if j = k then filteredBit (shiftSample (s.hist.get j) b) (s.filt.getLsbD j.val) else s.filt.getLsbD j.val := by
  simp only [debStep, State.setFilt_filt, getLsbD_setBit]
  split <;> simp [*]

/-- One debounce step changes only `hist` and `filt`. -/
theorem debStep_frame (k : Channel) (b : Bool) (s : State) :
    debStep k b s = { s with hist := (debStep k b s).hist, filt := (debStep k b s).filt } := rfl

theorem debounceAll_hist (raw : Nibble) (s : State) (k : Channel) :
    (debounceAll raw s).hist.get k = shiftSample (s.hist.get k) (raw.getLsbD k.val) := by
  unfold debounceAll
  match k with
  | 0 | 1 | 2 | 3 => simp [rawBit_eq]

theorem debounceAll_filt (raw : Nibble) (s : State) (k : Channel) :
    (debounceAll raw s).filt.getLsbD k.val =
      filteredBit (shiftSample (s.hist.get k) (raw.getLsbD k.val)) (s.filt.getLsbD k.val) := by
  unfold debounceAll
  match k with
  | 0 | 1 | 2 | 3 => simp only [debStep_filt, debStep_hist, rawBit_eq]; simp

theorem afterTick_now (raw : Nibble) (s : State) : (afterTick raw s).now = s.now + 10#32 := rfl

theorem afterTick_hist (raw : Nibble) (s : State) (k : Channel) :
    (afterTick raw s).hist.get k = shiftSample (s.hist.get k) (raw.getLsbD k.val) :=
  debounceAll_hist raw (advanceNow s) k

theorem afterTick_filt (raw : Nibble) (s : State) (k : Channel) :
    (afterTick raw s).filt.getLsbD k.val =
      filteredBit ((afterTick raw s).hist.get k) (s.filt.getLsbD k.val) := by
  rw [afterTick_hist]; exact debounceAll_filt raw (advanceNow s) k

theorem afterTick_prev (raw : Nibble) (s : State) : (afterTick raw s).prev = (afterTick raw s).filt := rfl

theorem afterTick_edge (raw : Nibble) (s : State) :
    (afterTick raw s).edge = s.edge ||| (s.prev &&& ~~~(afterTick raw s).filt) := rfl

/-- A TICK changes only `now`, `hist`, `filt`, `edge` and `prev`. -/
theorem afterTick_frame (raw : Nibble) (s : State) :
    afterTick raw s = { s with
      now := (afterTick raw s).now, hist := (afterTick raw s).hist, filt := (afterTick raw s).filt
      edge := (afterTick raw s).edge, prev := (afterTick raw s).prev } := rfl

/-! ### The display commands (47_display_encoder.md) -/

/-- The state after both bytes of `DISP` are written. -/
def withDisplay (b0 b1 : Byte) (s : State) : State :=
  s.setDisp (Memory.write s.resets (Memory.write s.resets s.disp 0 b0) 1 b1)

theorem withDisplay_read (b0 b1 : Byte) (s : State) (a : Nat) :
    Memory.read s.resets (withDisplay b0 b1 s).disp a =
      if a = 1 then b1 else if a = 0 then b0 else Memory.read s.resets s.disp a := by
  simp [withDisplay]

theorem withDisplay_wf {b0 b1 : Byte} {s : State} (h : Memory.wf s.resets s.disp = true) :
    Memory.wf s.resets (withDisplay b0 b1 s).disp = true :=
  Memory.wf_write (Memory.wf_write h (by decide)) (by decide)

theorem execRender_eq (s : State) :
    execRender s = .next (withDisplay (Config.segLut s.idig) (Config.segLut s.ddig) s) := by
  simp [execRender, memRead_lut, writeDisplay_eq, finish, withDisplay]

theorem execDispOverlay_eq (s : State) :
    execDispOverlay s = .next (withDisplay Config.segOverlay Config.segOverlay s) := rfl

theorem execDispBlank_eq (s : State) :
    execDispBlank s = .next (withDisplay Config.segBlank Config.segBlank s) := rfl

/-! ### What a command can answer -/

/-- The state each command ends in, over the operations above; none for the reserved opcodes. -/
def resultOf (i : Instr) (s : State) : Option State :=
  match i with
  | .nop => some s
  | .tick raw => some (afterTick raw s)
  | .edgeClr => some (s.setEdge 0b0000#4)
  | .incInt => some (s.setDigits (digitUp s.idig) s.ddig)
  | .decInt => some (s.setDigits (digitDown s.idig) s.ddig)
  | .incDec => some (if s.ddig.val < 9 then s.setDigits s.idig (digitUp s.ddig) else s.setDigits (digitUp s.idig) 0)
  | .decDec => some (if 0 < s.ddig.val then s.setDigits s.idig (digitDown s.ddig) else s.setDigits (digitDown s.idig) 9)
  | .render => some (withDisplay (Config.segLut s.idig) (Config.segLut s.ddig) s)
  | .dispOverlay => some (withDisplay Config.segOverlay Config.segOverlay s)
  | .dispBlank => some (withDisplay Config.segBlank Config.segBlank s)
  | .tonePlay period dur => some (s.setTone true (s.now + durationMs dur) period)
  | .tonePoll => some (if s.tAct && reached s.now s.tEnd then s.setToneActive false else s)
  | .reserved3 => none
  | .reservedB => none
  | .reservedE => none
  | .reservedF => none

/-- Everything a command can answer with a next state. -/
theorem exec_next_iff (i : Instr) (s t : State) : exec i s = .next t ↔ resultOf i s = some t := by
  cases i <;> simp [exec, resultOf, execNop, execTick_eq, execEdgeClr, execIncInt, execDecInt, execIncDec, execDecDec,
    execRender_eq, execDispOverlay_eq, execDispBlank_eq, execTonePlay, execTonePoll, execReserved3, execReservedB,
    execReservedE, execReservedF, raiseIllegalCommand]

/-! ### What one step can do -/

/-- Every step either runs the decoded command that `fetch` presents, or is the quiet event it answers. -/
theorem step_cases {s t : State} (h : step s = .next t) :
    (∃ w s', fetch s = .command w s' ∧ exec (decode w) s' = .next t) ∨ fetch s = .quiet t := by
  unfold step at h
  split at h
  · exact .inl ⟨_, _, ‹_›, h⟩
  · injection h with h; subst h; exact .inr ‹_›

/-- Every way `fetch` can answer: a deferred firing, the end of the input, or the next instant of it. -/
theorem fetch_cases {s : State} {f : Fetched} (h : fetch s = f) :
    (∃ raw more, s.ticks.enabled = true ∧ s.ticks.held = raw :: more ∧
      f = .command (encode (.tick raw)) (s.setTicks { s.ticks with held := more })) ∨
    (s.input = [] ∧ f = .quiet s) ∨
    (∃ rest, s.input = .reset :: rest ∧ f = .quiet (resetEvent (s.setInput rest))) ∨
    (∃ rest, s.input = .present none none :: rest ∧ f = .quiet (s.setInput rest)) ∨
    (∃ a rest, s.input = .present none (some a) :: rest ∧ f = mainAct a (s.setInput rest)) ∨
    (∃ raw a rest, s.input = .present (some raw) a :: rest ∧ f = fireTick raw (s.setInput (afterFiring a rest))) := by
  have key : ∀ g, nextInstant s = g →
      (s.input = [] ∧ g = .quiet s) ∨
      (∃ rest, s.input = .reset :: rest ∧ g = .quiet (resetEvent (s.setInput rest))) ∨
      (∃ rest, s.input = .present none none :: rest ∧ g = .quiet (s.setInput rest)) ∨
      (∃ a rest, s.input = .present none (some a) :: rest ∧ g = mainAct a (s.setInput rest)) ∨
      (∃ raw a rest, s.input = .present (some raw) a :: rest ∧
        g = fireTick raw (s.setInput (afterFiring a rest))) := by
    intro g hg
    unfold nextInstant at hg
    split at hg <;> simp_all
  unfold fetch at h
  split at h
  · exact .inl ⟨_, _, ‹_›, ‹_›, h.symm⟩
  · exact .inr (key f h)
  · exact .inr (key f h)

end Sys2Proof.Machine
end

