-- ==== Sys2Proof/Laws/PerInstr.lean ====
section
/-! SUPPORT. The per-instruction family of LAWS.json: the encoding of each command carries its opcode in `cmd[35:32]`
and its operands in `cmd[31:0]`, with every ignored bit 0 (spec/30_encoding.md R70, R73). -/

namespace Sys2Proof.Laws.CanonicalFields

/-- The two fields of the encoded command, and no ignored bit set. -/
def Statement (i : Instr) : Prop :=
  opcodeOf (encode i) = i.opcode ∧ argOf (encode i) = i.operandField ∧
    i.operandField &&& usedArgBits i.opcode = i.operandField

theorem fields (i : Instr) : opcodeOf (encode i) = i.opcode ∧ argOf (encode i) = i.operandField :=
  ⟨BitVec.extractLsb'_append_eq_left, BitVec.extractLsb'_append_eq_right⟩

theorem nop : Statement .nop := ⟨(fields _).1, (fields _).2, by decide⟩
theorem tick (raw : Nibble) : Statement (.tick raw) :=
  ⟨(fields _).1, (fields _).2, by revert raw; decide⟩
theorem edgeClr : Statement .edgeClr := ⟨(fields _).1, (fields _).2, by decide⟩
theorem incInt : Statement .incInt := ⟨(fields _).1, (fields _).2, by decide⟩
theorem decInt : Statement .decInt := ⟨(fields _).1, (fields _).2, by decide⟩
theorem incDec : Statement .incDec := ⟨(fields _).1, (fields _).2, by decide⟩
theorem decDec : Statement .decDec := ⟨(fields _).1, (fields _).2, by decide⟩
theorem render : Statement .render := ⟨(fields _).1, (fields _).2, by decide⟩
theorem dispOverlay : Statement .dispOverlay := ⟨(fields _).1, (fields _).2, by decide⟩
theorem dispBlank : Statement .dispBlank := ⟨(fields _).1, (fields _).2, by decide⟩
theorem tonePlay (period : Period) (dur : Duration) : Statement (.tonePlay period dur) :=
  ⟨(fields _).1, (fields _).2, BitVec.and_allOnes⟩
theorem tonePoll : Statement .tonePoll := ⟨(fields _).1, (fields _).2, by decide⟩
theorem reserved3 : Statement .reserved3 := ⟨(fields _).1, (fields _).2, by decide⟩
theorem reservedB : Statement .reservedB := ⟨(fields _).1, (fields _).2, by decide⟩
theorem reservedE : Statement .reservedE := ⟨(fields _).1, (fields _).2, by decide⟩
theorem reservedF : Statement .reservedF := ⟨(fields _).1, (fields _).2, by decide⟩

end Sys2Proof.Laws.CanonicalFields
end

