-- ==== Sys2Proof/Laws/Safety.lean ====
section
/-! SUPPORT. The small lemmas of the predicates of Safety.lean on the host's pending operations: how a list that sets
`phase` to NONE nowhere is put together, and everything `flashEndsInOrder` says of the next operation. -/

namespace Sys2Proof.Machine

@[simp] theorem keepsFlash_nil : keepsFlash [] = true := rfl

@[simp] theorem keepsFlash_cons (op : HostOp) (ops : List HostOp) :
    keepsFlash (op :: ops) = (!setsPhaseNone op && keepsFlash ops) := rfl

@[simp] theorem keepsFlash_append (l m : List HostOp) : keepsFlash (l ++ m) = (keepsFlash l && keepsFlash m) := by
  simp [keepsFlash]

/-- With no operation pending that sets `phase` to NONE, the order holds. -/
theorem flashEndsInOrder_of_keepsFlash {h : HostState} (hk : keepsFlash h.todo = true) :
    flashEndsInOrder h = true := by
  unfold flashEndsInOrder
  split <;> simp_all [setsPhaseNone]

/-- The next operation is the last RENDER of a flash, with its end right after it; or nothing behind the next
operation sets `phase` to NONE, and it does so itself only as boot step 1 with no flash or as the end of a complete
flash. -/
theorem flashEndsInOrder_next {h : HostState} {op : HostOp} {rest : List HostOp} (hf : flashEndsInOrder h = true)
    (ht : h.todo = op :: rest) :
    (op = .issue .render ∧ ∃ more, rest = .endFlash :: more ∧ flashComplete h = true ∧ keepsFlash more = true) ∨
    (keepsFlash rest = true ∧ (op = .setOwnState → h.phase = .none) ∧ (op = .endFlash → flashComplete h = true)) := by
  unfold flashEndsInOrder at hf
  split at hf <;> rename_i heq <;> rw [ht] at heq
  · injection heq with h1 h2; subst h1 h2
    simp only [Bool.and_eq_true, decide_eq_true_eq] at hf
    exact .inr ⟨hf.2, fun _ => hf.1, fun e => (nomatch e)⟩
  · injection heq with h1 h2; subst h1 h2
    simp only [Bool.and_eq_true] at hf
    exact .inl ⟨rfl, _, rfl, hf⟩
  · injection heq with h1 h2; subst h1 h2
    simp only [Bool.and_eq_true] at hf
    exact .inr ⟨hf.2, fun e => (nomatch e), fun _ => hf.1⟩
  · rw [ht] at hf
    simp only [keepsFlash_cons, Bool.and_eq_true, Bool.not_eq_true'] at hf
    refine .inr ⟨hf.2, fun e => ?_, fun e => ?_⟩ <;> subst e <;> cases hf.1

/-- A complete flash is in OFF with `cycles_completed = 3`. -/
theorem flashComplete_iff (h : HostState) : flashComplete h = true ↔ h.phase = .off ∧ h.cycles.val = 3 := by
  simp [flashComplete]

end Sys2Proof.Machine
end

