-- ==== Sys2Proof/Tests/Slice0.lean ====
section
/-! SUPPORT. The model's own tests. Expected values are those of spec/95_test_vectors.md, of the worked examples in
the rules, and of the encodings of 30_encoding.md; each test names its source. After them, one witness for every
statement that has hypotheses. -/

namespace Sys2Proof.Tests

open Sys2Proof.Machine

/-! ### Helpers -/

/-- One register of a next state. -/
def after {α : Type} (o : Outcome) (f : State → α) : Option α :=
  match o with
  | .next t => some (f t)
  | .fault _ => none
  | .refused _ => none

/-- The opcode a refusal records. -/
def illegalOp (o : Outcome) : Option Opcode :=
  match o with
  | .refused (.illegalCommand op) => some op
  | .refused (.notModelled _) => none
  | .next _ => none
  | .fault _ => none

/-- The reset state with these digits. -/
def withDigits (i d : Digit) : State := { State.reset with idig := i, ddig := d }

/-- The reset state with this count and this tone. -/
def withTone (now : Ms) (act : Bool) (stop : Ms) (per : Period) : State :=
  { State.reset with now := now, tAct := act, tEnd := stop, tPer := per }

/-- The reset state with this input. -/
def withInput (l : List Instant) : State := { State.reset with input := l }

/-- The reset state in which the host does this next, with this host phase and Dispatcher state. -/
def hostAt (p : Phase) (d : DState) (op : HostOp) (s : State) : State :=
  { s with
    input := [hostInstant]
    host := { phase := p, deadline := 100#32, cycles := 0, dstate := d, todo := [op] } }

/-- Both digits of a state. -/
def digits (s : State) : Digit × Digit := (s.idig, s.ddig)

/-! ### Decoding: one word of the spec for every constructor (R82; 95 groups K and X) -/

theorem test_decode_nop : decode 0x0DEADBEEF#36 = .nop := by decide
theorem test_decode_tick : decode 0x10000000B#36 = .tick 0b1011#4 := by decide
theorem test_decode_tick_low_four_bits : decode 0x1000000F0#36 = .tick 0b0000#4 := by decide
theorem test_decode_edge_clr : decode 0x200000000#36 = .edgeClr := by decide
theorem test_decode_reserved_3 : decode 0x300000000#36 = .reserved3 := by decide
theorem test_decode_inc_int : decode 0x4DEADBEEF#36 = .incInt := by decide
theorem test_decode_dec_int : decode 0x500000000#36 = .decInt := by decide
theorem test_decode_inc_dec : decode 0x6FFFFFFFF#36 = .incDec := by decide
theorem test_decode_dec_dec : decode 0x700000000#36 = .decDec := by decide
theorem test_decode_render : decode 0x800000000#36 = .render := by decide
theorem test_decode_disp_overlay : decode 0x900000000#36 = .dispOverlay := by decide
theorem test_decode_disp_blank : decode 0xA00000000#36 = .dispBlank := by decide
theorem test_decode_reserved_b : decode 0xB00000000#36 = .reservedB := by decide
theorem test_decode_tone_play : decode 0xC03E80032#36 = .tonePlay 1000#16 50#16 := by decide
theorem test_decode_tone_play_fields : decode 0xC0000FFFF#36 = .tonePlay 0#16 65535#16 := by decide
theorem test_decode_tone_poll : decode 0xD0000FFFF#36 = .tonePoll := by decide
theorem test_decode_reserved_e : decode 0xE12345678#36 = .reservedE := by decide
theorem test_decode_reserved_f : decode 0xFFFFFFFFF#36 = .reservedF := by decide
theorem test_encode_tone_play : encode (.tonePlay 0x1234#16 0#16) = 0xC12340000#36 := by decide
theorem test_decode_table_word : decodeTableWord 40 0xC07D00046 = some (.tonePlay 2000#16 70#16) := by decide
/-- A number with a bit above bit 35 is rejected by name (R70). -/
theorem test_decode_too_wide : decodeNumber 0x1000000000 = .error .widerThanACommandWord := by rfl

/-! ### Well-formedness: an ill-formed term for each check -/

theorem test_wf_refuses_reserved :
    [Instr.reserved3, .reservedB, .reservedE, .reservedF].map Instr.wf = [false, false, false, false] := by decide
theorem test_wf_refuses_wide_raw : (SourceCmd.tick 16).wf = false := by decide
theorem test_wf_refuses_wide_period : (SourceCmd.tonePlay 65536 0).wf = false := by decide
theorem test_wf_refuses_wide_duration : (SourceCmd.tonePlay 0 65536).wf = false := by decide
theorem test_wf_refuses_wide_repeated_raw : (SourceCmd.ticks 3 16).wf = false := by decide
theorem test_wf_accepts_the_widest : (SourceCmd.tonePlay 65535 65535).wf = true := by decide

/-! ### TICK, NOP, EDGE_CLR (R90 worked example; 95 groups K, D, E) -/

/-- The start of R90's worked example. -/
def tickExample : State :=
  { State.reset with hist := { ch0 := 0xFF#8, ch1 := 0xFF#8, ch2 := 0x80#8, ch3 := 0xFF#8 }, now := 70#32 }

theorem test_tick_worked_example :
    after (exec (.tick 0b1011#4) tickExample) (fun t => (t.now, t.hist, t.filt, t.edge, t.prev)) =
      some (80#32, { ch0 := 0xFF#8, ch1 := 0xFF#8, ch2 := 0x00#8, ch3 := 0xFF#8 }, 0b1011#4, 0b0100#4, 0b1011#4) := by
  decide
/-- K2. -/
theorem test_tick_wraps_now :
    after (exec (.tick 0b1111#4) { State.reset with now := 4294967290#32 }) (fun t => t.now) = some 4#32 := by decide
/-- D7, D8: a mixed history holds the filtered bit. -/
theorem test_debounce_holds :
    (shiftSample 0xA5#8 false, filteredBit 0x4A#8 true, shiftSample 0xA5#8 true, filteredBit 0x4B#8 false) =
      (0x4A#8, true, 0x4B#8, false) := by decide
/-- K4. -/
theorem test_nop : after (exec (decode 0x0DEADBEEF#36) State.reset) (fun t => decide (t.now = 0#32)) = some true := by
  decide
/-- E11. -/
theorem test_edge_clr :
    after (exec .edgeClr { State.reset with edge := 0b1011#4 }) (fun t => (t.edge, t.filt)) =
      some (0b0000#4, 0b1111#4) := by decide

/-! ### The counter (worked examples of R121 to R124) -/

theorem test_inc_int : after (exec .incInt (withDigits 3 7)) digits = some (4, 7) := by decide
theorem test_inc_int_saturates : after (exec .incInt (withDigits 9 7)) digits = some (9, 7) := by decide
theorem test_dec_int : after (exec .decInt (withDigits 3 7)) digits = some (2, 7) := by decide
theorem test_dec_int_saturates : after (exec .decInt (withDigits 0 7)) digits = some (0, 7) := by decide
theorem test_inc_dec_carries : after (exec .incDec (withDigits 3 9)) digits = some (4, 0) := by decide
theorem test_inc_dec_boundary : after (exec .incDec (withDigits 9 9)) digits = some (9, 0) := by decide
theorem test_dec_dec_borrows : after (exec .decDec (withDigits 4 0)) digits = some (3, 9) := by decide
theorem test_dec_dec_boundary : after (exec .decDec (withDigits 0 0)) digits = some (0, 9) := by decide

/-! ### The tone timer (95 group T) -/

/-- T1. -/
theorem test_tone_play :
    after (exec (.tonePlay 1000#16 50#16) (withTone 120#32 false 0#32 0#16)) (fun t => (t.tPer, t.tAct, t.tEnd)) =
      some (1000#16, true, 170#32) := by decide
/-- T9. -/
theorem test_tone_play_wraps :
    after (exec (.tonePlay 512#16 50#16) (withTone 4294967270#32 false 0#32 0#16)) (fun t => t.tEnd) =
      some 24#32 := by decide
/-- T2. -/
theorem test_tone_poll_not_due :
    after (exec .tonePoll (withTone 160#32 true 170#32 1000#16)) (fun t => t.tAct) = some true := by decide
/-- T3. -/
theorem test_tone_poll_due :
    after (exec .tonePoll (withTone 170#32 true 170#32 1000#16)) (fun t => (t.tAct, t.tPer, t.tEnd)) =
      some (false, 1000#16, 170#32) := by decide
/-- The table of `reached` in 95 group T. -/
theorem test_reached :
    ([(0x64, 0x64), (0x63, 0x64), (0x65, 0x64), (0x80000063, 0x64), (0x80000064, 0x64), (0x4, 0xFFFFFFFA),
      (0xFFFFFFF0, 0x18), (0x0, 0x80000001), (0x0, 0x80000000)] : List (Ms × Ms)).map (fun p => reached p.1 p.2) =
      [true, false, true, true, false, true, false, true, false] := by decide

/-! ### The display (95 group R) -/

/-- R-2. -/
theorem test_render : after (exec .render (withDigits 4 0)) dispO = some (Config.segLut 4, Config.segLut 0) := by
  simp [exec, execRender_eq, after, dispO, withDisplay, withDigits]
/-- R-8. -/
theorem test_disp_overlay :
    after (exec .dispOverlay State.reset) dispO = some (Config.segOverlay, Config.segOverlay) := by
  simp [exec, execDispOverlay_eq, after, dispO, withDisplay]
/-- R-9. -/
theorem test_disp_blank : after (exec .dispBlank State.reset) dispO = some (Config.segBlank, Config.segBlank) := by
  simp [exec, execDispBlank_eq, after, dispO, withDisplay]
/-- The table has no entry 10 (R52). -/
theorem test_lut_has_ten_entries : memRead .lut 10 State.reset = .error (.noSuchAddress .lut 10) := by rfl
/-- `DISP` has no address 2 (R50). -/
theorem test_disp_has_two_bytes : memRead .disp 2 State.reset = .error (.noSuchAddress .disp 2) := by rfl

/-! ### Reserved opcodes (95 group X) -/

theorem test_reserved_3 : illegalOp (exec (decode 0x300000000#36) State.reset) = some 0x3#4 := by decide
theorem test_reserved_b : illegalOp (exec (decode 0xB00000000#36) State.reset) = some 0xB#4 := by decide
theorem test_reserved_e : illegalOp (exec (decode 0xE12345678#36) State.reset) = some 0xE#4 := by decide
theorem test_reserved_f : illegalOp (exec (decode 0xFFFFFFFFF#36) State.reset) = some 0xF#4 := by decide

/-! ### Steps, ticks, reset -/

/-- K5, run as the first command after reset. -/
theorem test_first_word_after_reset :
    after (step (State.reset.withFetchWord 40 0x1FFFFFFF5)) (fun t => (t.hist, t.now)) =
      some ({ ch0 := 0xFF#8, ch1 := 0xFE#8, ch2 := 0xFF#8, ch3 := 0xFE#8 }, 10#32) := by decide
/-- R58: the TICK goes first, the main agent's word stays to come. -/
theorem test_tie_goes_to_the_tick :
    after (step { withInput [.present (some 0b1111#4) (some (.command 0x400000000#36))] with
        ticks := { enabled := true, held := [] } })
      (fun t => (t.now, t.idig, t.input)) =
      some (10#32, 0, [.present none (some (.command 0x400000000#36))]) := by decide
/-- R59: a firing in a critical section is kept with its sample. -/
theorem test_suppressed_tick_is_held :
    after (step (withInput [.present (some 0b0111#4) none])) (fun t => (t.now, t.ticks.held)) =
      some (0#32, [0b0111#4]) := by decide
/-- R240. -/
theorem test_reset_event :
    after (step { withDigits 7 3 with input := [.reset], now := 500#32 }) (fun t => (digits t, t.now, t.resets)) =
      some ((0, 0), 0#32, 1) := by decide

/-! ### The reference host -/

/-- Scenario D: at (9, 9) the Dispatcher starts the flash and issues no INC_DEC. -/
theorem test_dispatch_refuses_at_nine_nine :
    after (step (hostAt .none .incDec .dispatch (withDigits 9 9))) (fun t => t.host.todo) =
      some [.overlayStart, .goto .errorFlash] := by decide
/-- Scenario E, first half: of buttons 1 and 2 the Dispatcher serves button 1. -/
theorem test_dispatch_priority :
    after (step (hostAt .none .idle .dispatch { State.reset with edge := 0b0011#4 })) (fun t => t.host.dstate) =
      some .incInt := by decide
/-- R162 worked example. -/
theorem test_overlay_start :
    after (step (hostAt .none .idle .overlayStart { State.reset with now := 200#32 }))
      (fun t => (t.host.phase, t.host.deadline, t.host.cycles)) = some (.on, 300#32, 0) := by decide
/-- R166: the third OFF expiry ends the flash with a RENDER. -/
theorem test_flash_ends_after_three_cycles :
    after (step { hostAt .off .errorFlash .overlayOffCheck { State.reset with now := 100#32 } with
        host := { phase := .off, deadline := 100#32, cycles := 2, dstate := .errorFlash, todo := [.overlayOffCheck] } })
      (fun t => t.host.todo) = some [.issue .render, .endFlash] := by decide

/-! ### The assembler (R79 to R82) -/

theorem test_assemble :
    assemble "; comment\nTICK 0b1011 ; held\n TONE_PLAY 1000, 0x32\nTICKS 2, 15\n\nEDGE_CLR".toList =
      .ok [.tick 0b1011#4, .tonePlay 1000#16 50#16, .tick 0b1111#4, .tick 0b1111#4, .edgeClr] := by rfl
theorem test_assemble_wide_operand : assemble "TICK 16".toList = .error .operandTooWide := by rfl
theorem test_assemble_unknown : assemble "tick 1".toList = .error .unknownMnemonic := by rfl
theorem test_parameter_name : readOperand "PER_INC".toList = some Config.perInc.toNat := by rfl
theorem test_fixed_parameter : assemble "TONE_PLAY 7, DUR_ERR".toList = .ok [.tonePlay 7#16 80#16] := by rfl

/-! ### Memory -/

theorem test_reset_memory_is_canonical : Memory.wf State.reset.resets State.reset.disp = true := by rfl

/-! ### A witness for the hypotheses of each statement -/

theorem witness_IgnoredBitsDoNotMatter :
    canonicalWord 0x4DEADBEEF#36 = canonicalWord 0x400000000#36 ∧ 0x4DEADBEEF#36 ≠ 0x400000000#36 := by decide

/-- The opcode hypotheses of OperandAssembly and of every result statement, on words with ignored bits set where the
format has them. -/
theorem witness_opcode_hypotheses :
    ([0x0DEADBEEF, 0x1FFFFFFF5, 0x2FFFFFFFF, 0x4DEADBEEF, 0x5FFFFFFFF, 0x6FFFFFFFF, 0x7FFFFFFFF, 0x8FFFFFFFF,
      0x9FFFFFFFF, 0xAFFFFFFFF, 0xCFFFF0000, 0xD0000FFFF] : List CmdWord).map (fun w => w.extractLsb' 32 4) =
      [0x0#4, 0x1#4, 0x2#4, 0x4#4, 0x5#4, 0x6#4, 0x7#4, 0x8#4, 0x9#4, 0xA#4, 0xC#4, 0xD#4] := by decide

theorem witness_ReservedOpcodesAreRefused :
    ∀ op ∈ [0x3#4, 0xB#4, 0xE#4, 0xF#4], op = 0x3#4 ∨ op = 0xB#4 ∨ op = 0xE#4 ∨ op = 0xF#4 := by decide

theorem witness_OnlyTickAdvancesNow :
    ({ State.reset with now := 0xFFFFFFFA#32 } : State).now = 0xFFFFFFFA#32 ∧
      exec .edgeClr State.reset = .next State.reset ∧ ∀ raw, Instr.edgeClr ≠ .tick raw :=
  ⟨rfl, rfl, fun _ h => by cases h⟩

theorem witness_HistoryIsTheLastEightSamples : 8 ≤ (List.replicate 8 (0b1110#4 : Nibble)).length := by decide

/-- Seven TICKs of pressed samples from reset, then an eighth: the first clause. -/
theorem witness_EightIdenticalSamplesFlip_press :
    ∃ u t, runInstrs ((List.replicate 7 (0b1110#4 : Nibble)).map Instr.tick) State.reset = .next u ∧
      exec (.tick 0b1110#4) u = .next t ∧ u.filt.getLsbD 0 = true ∧ t.filt.getLsbD 0 = false :=
  ⟨_, _, rfl, rfl, by decide, by decide⟩

/-- The same of released samples on a channel that is pressed: the second clause. -/
theorem witness_EightIdenticalSamplesFlip_release :
    ∃ u t, runInstrs ((List.replicate 7 (0b1111#4 : Nibble)).map Instr.tick)
        { State.reset with hist := { State.reset.hist with ch0 := 0x00#8 }, filt := 0b1110#4 } = .next u ∧
      exec (.tick 0b1111#4) u = .next t ∧ u.filt.getLsbD 0 = false ∧ t.filt.getLsbD 0 = true :=
  ⟨_, _, rfl, rfl, by decide, by decide⟩

/-- Seven and eight samples at the other level after one at the level held. -/
theorem witness_OppositeSampleRestartsTheCount :
    (0b1111#4 : Nibble).getLsbD 0 = true ∧
      after (exec (.tick 0b1111#4) State.reset) (fun u => u.filt.getLsbD 0) = some true ∧
      (List.replicate 7 (0b1110#4 : Nibble)).length ≤ 7 ∧ (List.replicate 8 (0b1110#4 : Nibble)).length = 8 ∧
      ∀ r ∈ List.replicate 8 (0b1110#4 : Nibble), r.getLsbD 0 = !true := by decide

theorem witness_FilterChangesOnlyAtAllZeroOrAllOne :
    after (exec (.tick 0b1011#4) tickExample) (fun t => decide (t.filt.getLsbD 2 ≠ tickExample.filt.getLsbD 2)) =
      some true := by decide

theorem witness_TickSetsAnEdgeBitExactlyOnAPress :
    tickExample.prev = tickExample.filt ∧
      after (exec (.tick 0b1011#4) tickExample) (fun t => t.edge.getLsbD 2) = some true := by decide

theorem witness_EdgeBitStaysUntilEdgeClr :
    (edgeO { State.reset with edge := 0b0001#4 }).getLsbD 0 = true ∧ Instr.nop ≠ .edgeClr ∧
      exec .nop { State.reset with edge := 0b0001#4 } = .next { State.reset with edge := 0b0001#4 } :=
  ⟨by decide, by decide, rfl⟩

/-- Both branches of IncDecResult and DecDecResult. -/
theorem witness_digit_branches :
    (withDigits 3 7).ddig.val < 9 ∧ (withDigits 9 9).ddig.val = 9 ∧ 0 < (withDigits 3 7).ddig.val ∧
      (withDigits 0 0).ddig.val = 0 := by decide

/-- Every clause of CounterRoundTrip. -/
theorem witness_CounterRoundTrip :
    ¬((withDigits 3 9).idig.val = 9 ∧ (withDigits 3 9).ddig.val = 9) ∧
      ¬((withDigits 4 0).idig.val = 0 ∧ (withDigits 4 0).ddig.val = 0) ∧ (withDigits 8 0).idig.val < 9 ∧
      (withDigits 1 0).idig.val > 0 ∧ (withDigits 9 7).idig.val = 9 ∧ (withDigits 0 7).idig.val = 0 ∧ ((withDigits 9 9).idig.val = 9 ∧ (withDigits 9 9).ddig.val = 9) ∧
      ((withDigits 0 0).idig.val = 0 ∧ (withDigits 0 0).ddig.val = 0) := by decide

/-- Both clauses of TonePollResult: due at the deadline, not due one millisecond before. -/
theorem witness_TonePollResult :
    ((withTone 170#32 true 170#32 0#16).tAct = true ∧ (170#32 - 170#32 : Ms).toNat < 2 ^ 31) ∧
      ¬((withTone 169#32 true 170#32 0#16).tAct = true ∧ (169#32 - 170#32 : Ms).toNat < 2 ^ 31) := by decide

theorem witness_OnlyTonePollStopsATone :
    (withTone 170#32 true 170#32 0#16).tAct = true ∧
      after (exec .tonePoll (withTone 170#32 true 170#32 0#16)) (fun t => t.tAct) = some false := by decide

/-- Both clauses of ReachedCountsElapsedTime: across a wrap, and without one. -/
theorem witness_ReachedCountsElapsedTime :
    (50#32 : Ms).toNat < 2 ^ 31 ∧ (2147483647#32 : Ms).toNat < 2 ^ 31 ∧
      (4294967270#32 : Ms).toNat + (50#32 : Ms).toNat ≥ 2 ^ 32 ∧
      (120#32 : Ms).toNat + (50#32 : Ms).toNat < 2 ^ 32 ∧
      (120#32 : Ms).toNat + (2147483647#32 : Ms).toNat < 2 ^ 32 := by decide

theorem witness_ToneLastsItsDurationInTicks :
    (List.replicate 5 (0b1111#4 : Nibble)) ≠ [] ∧ 10 * (List.replicate 5 (0b1111#4 : Nibble)).length < 2 ^ 31 := by
  decide

theorem witness_OnlyDisplayCommandsChangeTheDisplay :
    Instr.nop ≠ .render ∧ Instr.nop ≠ .dispOverlay ∧ Instr.nop ≠ .dispBlank ∧
      exec .nop State.reset = .next State.reset := ⟨by decide, by decide, by decide, rfl⟩

/-- An address outside `DISP` for the display frames. -/
theorem witness_other_address : (2 : Nat) ≠ 0 ∧ (2 : Nat) ≠ 1 := by decide

theorem witness_DisplayCommandsAreIdempotent :
    Memory.wf State.reset.resets State.reset.disp = true ∧
      exec .render State.reset = .next (withDisplay (Config.segLut 0) (Config.segLut 0) State.reset) ∧
      exec .dispOverlay State.reset = .next (withDisplay Config.segOverlay Config.segOverlay State.reset) ∧
      exec .dispBlank State.reset = .next (withDisplay Config.segBlank Config.segBlank State.reset) :=
  ⟨rfl, (execRender_eq State.reset : execRender State.reset = _), rfl, rfl⟩

theorem witness_EveryCommandCompletes : (Instr.tonePlay 65535#16 65535#16).wf = true := by decide

theorem witness_StepStopsOnlyOnAReservedOpcode :
    step (State.reset.withFetchWord 40 0xE12345678) = .refused (.illegalCommand 0xE#4) := by rfl

/-- Each premise of SingleWriterOwnership: a command that is none of the writers, one of the integer commands. -/
theorem witness_SingleWriterOwnership :
    exec .nop State.reset = .next State.reset ∧ (∀ raw, Instr.nop ≠ .tick raw) ∧ Instr.nop ≠ .edgeClr ∧
      Instr.nop ≠ .incInt ∧ Instr.nop ≠ .decInt ∧ Instr.nop ≠ .incDec ∧ Instr.nop ≠ .decDec ∧
      (∀ p d, Instr.nop ≠ .tonePlay p d) ∧ Instr.nop ≠ .tonePoll ∧ Instr.nop ≠ .render ∧
      Instr.nop ≠ .dispOverlay ∧ Instr.nop ≠ .dispBlank ∧
      exec .incInt (withDigits 3 7) = .next (withDigits 4 7) :=
  ⟨rfl, fun _ h => (by cases h), by decide, by decide, by decide, by decide, by decide, fun _ _ h => (by cases h),
    by decide, by decide, by decide, by decide, rfl⟩

theorem witness_LatchEquality :
    State.reset.prev = State.reset.filt ∧
      after (exec (.tick 0b1011#4) tickExample) (fun t => decide (t.prev = t.filt)) = some true := by decide

/-- The invariant and a step that changes the state: DISP_BLANK presented right after reset. -/
theorem witness_EveryStepKeepsTheInvariant :
    Memory.wf 0 State.reset.disp = true ∧ State.reset.prev = State.reset.filt ∧
      State.reset.host.todo.all hostOpLegal = true ∧ flashEndsInOrder State.reset.host = true ∧
      step (State.reset.withFetchWord 40 0xA00000000) =
        .next (withDisplay Config.segBlank Config.segBlank State.reset) := ⟨rfl, rfl, rfl, rfl, rfl⟩

theorem witness_StepRunsTheDecodedCommand :
    fetch (State.reset.withFetchWord 40 0x400000000) = .command 0x400000000#36 State.reset ∧
      fetch State.reset = .quiet State.reset := ⟨rfl, rfl⟩

/-- Each clause of ArrivalOrderAndTheTie has an input. -/
theorem witness_ArrivalOrderAndTheTie :
    noTickDue (withInput [.present none (some (.command 0x400000000#36))]) = true ∧
      noTickDue { withInput [.present (some 0b1111#4) none] with ticks := { enabled := true, held := [] } } = true ∧
      noTickDue { withInput [.present (some 0b1111#4) (some .host)] with ticks := { enabled := true, held := [] } } =
        true ∧ noTickDue (withInput [.present none none]) = true ∧ (withInput []).input = [] := by decide

/-- Each clause of SuppressedTicksAreDeferred has a state. -/
theorem witness_SuppressedTicksAreDeferred :
    (withInput [.present (some 0b0111#4) none]).ticks.enabled = false ∧
      (withInput [.present (some 0b0111#4) (some .host)]).ticks.enabled = false ∧
      ({ State.reset with ticks := { enabled := true, held := [0b0111#4] } } : State).ticks.held = 0b0111#4 :: [] ∧
      noTickDue (withInput [.present none (some .suppressTicks)]) = true ∧
      noTickDue (withInput [.present none (some .resumeTicks)]) = true := by decide

theorem witness_ResetEventInstallsTheResetValues :
    noTickDue (withInput [.reset]) = true ∧ (withInput [.reset]).input = .reset :: [] := by decide

theorem witness_ResetValues : (0 : Nat) < 2 ∧ (1 : Nat) < 2 := by decide

theorem witness_WithFetchWordRunsTheWord :
    0xFFFFFFFFF < 2 ^ 36 ∧ noTickDue State.reset = true ∧
      noTickDue { State.reset with ticks := { enabled := true, held := [0b0000#4] } } = false := by decide

/-- Both clauses of HostIterationAndIssue. -/
theorem witness_HostIterationAndIssue :
    noTickDue (hostAt .none .idle (.issue .incInt) State.reset) = true ∧
      (hostAt .none .idle (.issue .incInt) State.reset).host.todo = .issue .incInt :: [] ∧
      ({ withInput [hostInstant] with host := { HostState.reset with todo := [] } } : State).host.todo = [] := by decide

/-- A state for each row of the Dispatcher's table: every Dispatcher state in both branches, and every edge pattern. -/
theorem witness_DispatcherTransitionTable :
    (∀ d ∈ [DState.idle, .incInt, .decInt, .incDec, .decDec, .errorFlash, .update],
      noTickDue (hostAt .none d .dispatch State.reset) = true ∧ (hostAt .none d .dispatch State.reset).host.dstate = d ∧
        (hostAt .none d .dispatch State.reset).input = hostInstant :: [] ∧
        (hostAt .none d .dispatch State.reset).host.todo = .dispatch :: []) ∧
      (hostAt .on .idle .dispatch State.reset).host.phase ≠ .none ∧
      (0b1111#4 : Nibble).getLsbD 0 = true ∧ (0b1110#4 : Nibble).getLsbD 1 = true ∧
      (0b1100#4 : Nibble).getLsbD 2 = true ∧ (0b1000#4 : Nibble).getLsbD 3 = true ∧
      (hostAt .none .idle (.goto .update) State.reset).host.todo = .goto .update :: [] := by decide

theorem witness_OverlayStartResult :
    noTickDue (hostAt .none .incDec .overlayStart State.reset) = true ∧
      (hostAt .none .incDec .overlayStart State.reset).host.todo = .overlayStart :: [] ∧
      (hostAt .none .incDec .overlayStart State.reset).host.phase = .none ∧
      (hostAt .off .incDec .overlayStart State.reset).host.phase ≠ .none := by decide

/-- Each clause of OverlayPollResult: deadline 100, count 90 (not reached) and 100 (reached), cycles 0 and 2. -/
theorem witness_OverlayPollResult :
    (hostAt .on .errorFlash .overlayPoll State.reset).host.todo = .overlayPoll :: [] ∧
      (hostAt .on .errorFlash .overlayOnCheck State.reset).host.phase = .on ∧
      (hostAt .off .errorFlash .overlayOffCheck State.reset).host.phase = .off ∧
      reached 90#32 (hostAt .off .errorFlash .overlayOffCheck State.reset).host.deadline = false ∧
      reached 100#32 (hostAt .off .errorFlash .overlayOffCheck State.reset).host.deadline = true ∧
      (hostAt .off .errorFlash .overlayOffCheck State.reset).host.cycles.val < 2 ∧ 2 ≤ (2 : Fin 4).val ∧
      (hostAt .off .errorFlash .endFlash State.reset).host.todo = .endFlash :: [] := by decide

/-- The reset state in OFF with the deadline 100 reached, with these cycles completed and this operation next. -/
def offAt (cycles : Fin 4) (op : HostOp) : State :=
  { State.reset with
    now := 100#32
    input := [hostInstant]
    host := { phase := .off, deadline := 100#32, cycles := cycles, dstate := .errorFlash, todo := [op] } }

/-- Steps that enter ON from NONE, OFF from ON, ON from OFF (after the first cycle and after the second, the last that
may), and one that completes the third cycle. -/
theorem witness_FlashPhaseOrder :
    after (step (hostAt .none .incDec .overlayStart State.reset)) (fun t => t.host.phase) = some .on ∧
      after (step (hostAt .on .errorFlash .overlayOnCheck { State.reset with now := 100#32 })) (fun t => t.host.phase) =
        some .off ∧
      after (step (offAt 0 .overlayOffCheck)) (fun t => (t.host.phase, t.host.cycles)) = some (.on, 1) ∧
      after (step (offAt 1 .overlayOffCheck)) (fun t => (t.host.phase, t.host.cycles)) = some (.on, 2) ∧
      after (step (offAt 2 .overlayOffCheck)) (fun t => (t.host.phase, t.host.cycles)) = some (.off, 3) := by decide

/-- Steps that enter NONE with the invariant before: the end of a complete flash, and a reset event in ON. -/
theorem witness_FlashPhaseOrder_none :
    Inv (offAt 3 .endFlash) ∧ (offAt 3 .endFlash).host.phase ≠ .none ∧
      after (step (offAt 3 .endFlash)) (fun t => t.host.phase) = some .none ∧
      Inv { hostAt .on .errorFlash .dispatch State.reset with input := [.reset] } ∧
      after (step { hostAt .on .errorFlash .dispatch State.reset with input := [.reset] }) (fun t => t.host.phase) =
        some .none :=
  ⟨⟨rfl, rfl, rfl, rfl⟩, by decide, by decide, ⟨rfl, rfl, rfl, rfl⟩, by decide⟩

theorem witness_BootSequenceResult :
    (withInput [hostInstant, hostInstant, hostInstant]).host.todo = bootSequence ∧
      (withInput [hostInstant, hostInstant, hostInstant]).ticks.enabled = false := by decide

/-- The main agent presenting a word of its own, and the reference host issuing its boot RENDER. -/
theorem witness_MainAgentPresentsOnlyItsOwnCommands :
    Inv (withInput [.present none (some (.command 0x400000000#36))]) ∧
      respectsIssuers [.present none (some (.command 0x400000000#36))] = true ∧
      noTickDue (withInput [.present none (some (.command 0x400000000#36))]) = true ∧
      fetch (withInput [.present none (some (.command 0x400000000#36))]) =
        .command 0x400000000#36 State.reset ∧
      fetch (hostAt .none .idle (.issue .render) State.reset) =
        .command 0x800000000#36 { hostAt .none .idle (.issue .render) State.reset with
          input := [], host := { phase := .none, deadline := 100#32, cycles := 0, dstate := .idle, todo := [] } } :=
  ⟨⟨rfl, rfl, rfl, rfl⟩, by decide, by decide, rfl, rfl⟩

theorem witness_HostPreChecksEveryCounterCommand :
    hostGuarded (hostAt .none .incDec (.issue .incDec) (withDigits 3 9)) = true ∧
      after (step (hostAt .none .incDec (.issue .incDec) (withDigits 3 9))) digits = some (4, 0) := by decide

theorem witness_ResetIsGuarded :
    onlyHostActs [.reset, .present (some 0b0111#4) (some .host), .present none (some .suppressTicks)] = true := by
  decide

/-- Both clauses of GuardedHostNeverLosesACarry, at the value next to the boundary. -/
theorem witness_GuardedHostNeverLosesACarry :
    hostGuarded (hostAt .none .incDec (.issue .incDec) (withDigits 9 8)) = true ∧
      noTickDue (hostAt .none .incDec (.issue .incDec) (withDigits 9 8)) = true ∧
      after (step (hostAt .none .incDec (.issue .incDec) (withDigits 9 8))) digits = some (9, 9) ∧
      hostGuarded (hostAt .none .decDec (.issue .decDec) (withDigits 0 1)) = true ∧
      after (step (hostAt .none .decDec (.issue .decDec) (withDigits 0 1))) digits = some (0, 0) := by decide

theorem witness_PiecewiseReadOfNowCanTear :
    (withTone 250#32 false 0#32 0#16).now = 250#32 ∧
      after (exec (.tick 0b1111#4) (withTone 250#32 false 0#32 0#16)) (fun t => t.now) = some 260#32 := by decide

theorem witness_TicksStandsForRepeatedTicks : (15 : Nat) < 16 := by decide

end Sys2Proof.Tests
end

/-! Proofs of the time comparison (spec/00_scope.md R10). -/
section
namespace Sys2Proof.Proofs.Deadline
open Sys2Proof Sys2Proof.Machine

/-- The origin of both instants cancels, wrapped or not: only the times since it decide. -/
theorem reached_add_add_iff (n0 delta elapsed : Ms) :
    reached (n0 + elapsed) (n0 + delta) = true ↔ (elapsed - delta).toNat < 2 ^ 31 := by
  rw [reached_iff, add_sub_add_left_eq_sub]

/-- The half-range test: among times below 2^31, a difference modulo 2^32 below 2^31 is one that did not borrow. -/
theorem toNat_sub_lt_half_iff {a b : Ms} (ha : a.toNat < 2 ^ 31) (hb : b.toNat < 2 ^ 31) :
    (a - b).toNat < 2 ^ 31 ↔ b.toNat ≤ a.toNat := by
  rcases Nat.lt_or_ge a.toNat b.toNat with hlt | hge
  · have hborrow : (a - b).toNat = 2 ^ 32 - (b.toNat - a.toNat) := by bv_omega
    omega
  · have hexact : (a - b).toNat = a.toNat - b.toNat := BitVec.toNat_sub_of_le hge
    omega

/-- The first sentence of R10: `reached` counts the time since `n0`. -/
theorem reached_iff_delta_le_elapsed (n0 : Ms) {delta elapsed : Ms} (hd : delta.toNat < 2 ^ 31)
    (he : elapsed.toNat < 2 ^ 31) :
    reached (n0 + elapsed) (n0 + delta) = true ↔ delta.toNat ≤ elapsed.toNat :=
  (reached_add_add_iff n0 delta elapsed).trans (toNat_sub_lt_half_iff he hd)

/-- Settles O29: elapsed time decides, and where neither sum wraps both sides carry the same `n0`. -/
theorem reachedCountsElapsedTime : Obligations.ReachedCountsElapsedTime := by
  refine ⟨fun n0 delta elapsed hd he => reached_iff_delta_le_elapsed n0 hd he, ?_⟩
  intro n0 delta elapsed hd he hdeadline hnow
  rw [reached_iff_delta_le_elapsed n0 hd he, BitVec.toNat_add_of_lt hdeadline, BitVec.toNat_add_of_lt hnow,
    Nat.add_le_add_iff_left]

end Sys2Proof.Proofs.Deadline
end

/-! Which registers a command writes, said once for every command (spec/10_state.md R20, R43), and the rules that
follow from it: single writers, the filter, the latch. -/
section
namespace Sys2Proof.Proofs.CommandWrites
open Sys2Proof Sys2Proof.Machine

/-- A command that completes is one of these writes to the state it found. The values of the counter commands and of
the display commands are left open: what they are is the matter of files 43 and 47. -/
inductive Writes (s : State) : Instr → State → Prop
  | nop : Writes s .nop s
  | tick (raw : Nibble) : Writes s (.tick raw) (afterTick raw s)
  | edgeClr : Writes s .edgeClr (s.setEdge 0b0000#4)
  | integerDigit {i : Instr} (hi : i = .incInt ∨ i = .decInt) (d : Digit) : Writes s i (s.setDigits d s.ddig)
  | bothDigits {i : Instr} (hi : i = .incDec ∨ i = .decDec) (d e : Digit) : Writes s i (s.setDigits d e)
  | display {i : Instr} (hi : i = .render ∨ i = .dispOverlay ∨ i = .dispBlank) (b0 b1 : Byte) :
      Writes s i (withDisplay b0 b1 s)
  | tonePlay (period : Period) (dur : Duration) :
      Writes s (.tonePlay period dur) (s.setTone true (s.now + durationMs dur) period)
  | tonePoll (on : Bool) : Writes s .tonePoll (s.setToneActive on)

/-- The inversion of `exec`: no command does anything else. -/
theorem writes_of_exec {i : Instr} {s t : State} (h : exec i s = .next t) : Writes s i t := by
  rw [exec_next_iff] at h
  cases i <;> simp only [resultOf, Option.some.injEq, reduceCtorEq] at h <;> subst h
  case nop => exact .nop
  case tick raw => exact .tick raw
  case edgeClr => exact .edgeClr
  case incInt => exact .integerDigit (.inl rfl) _
  case decInt => exact .integerDigit (.inr rfl) _
  case incDec => split <;> exact .bothDigits (.inl rfl) _ _
  case decDec => split <;> exact .bothDigits (.inr rfl) _ _
  case render => exact .display (.inl rfl) _ _
  case dispOverlay => exact .display (.inr (.inl rfl)) _ _
  case dispBlank => exact .display (.inr (.inr rfl)) _ _
  case tonePlay period dur => exact .tonePlay period dur
  case tonePoll =>
    split
    · exact .tonePoll false
    · exact .tonePoll s.tAct

/-! ### One writer for each register group -/

section
variable {i : Instr} {s t : State}

theorem Writes.sampling_eq (h : Writes s i t) (hi : ∀ raw, i ≠ .tick raw) :
    t.hist = s.hist ∧ t.filt = s.filt ∧ t.prev = s.prev ∧ t.now = s.now := by
  cases h with
  | tick raw => exact absurd rfl (hi raw)
  | _ => exact ⟨rfl, rfl, rfl, rfl⟩

theorem Writes.edge_eq (h : Writes s i t) (htick : ∀ raw, i ≠ .tick raw) (hclr : i ≠ .edgeClr) :
    t.edge = s.edge := by
  cases h with
  | tick raw => exact absurd rfl (htick raw)
  | edgeClr => exact absurd rfl hclr
  | _ => rfl

theorem Writes.digits_eq (h : Writes s i t) (hii : i ≠ .incInt) (hdi : i ≠ .decInt) (hid : i ≠ .incDec)
    (hdd : i ≠ .decDec) : t.idig = s.idig ∧ t.ddig = s.ddig := by
  cases h with
  | integerDigit hi => exact absurd hi (by simp [hii, hdi])
  | bothDigits hi => exact absurd hi (by simp [hid, hdd])
  | _ => exact ⟨rfl, rfl⟩

theorem Writes.ddig_eq (h : Writes s i t) (hi : i = .incInt ∨ i = .decInt) : t.ddig = s.ddig := by
  cases h with
  | bothDigits hi' => rcases hi with rfl | rfl <;> simp at hi'
  | _ => rfl

theorem Writes.tAct_eq (h : Writes s i t) (hplay : ∀ p d, i ≠ .tonePlay p d) (hpoll : i ≠ .tonePoll) :
    t.tAct = s.tAct := by
  cases h with
  | tonePlay period dur => exact absurd rfl (hplay period dur)
  | tonePoll => exact absurd rfl hpoll
  | _ => rfl

theorem Writes.deadline_eq (h : Writes s i t) (hplay : ∀ p d, i ≠ .tonePlay p d) :
    t.tEnd = s.tEnd ∧ t.tPer = s.tPer := by
  cases h with
  | tonePlay period dur => exact absurd rfl (hplay period dur)
  | _ => exact ⟨rfl, rfl⟩

theorem Writes.disp_eq (h : Writes s i t) (hr : i ≠ .render) (ho : i ≠ .dispOverlay) (hb : i ≠ .dispBlank) :
    t.disp = s.disp := by
  cases h with
  | display hi => exact absurd hi (by simp [hr, ho, hb])
  | _ => rfl

/-- No command writes anything outside the block. -/
theorem Writes.outside_eq (h : Writes s i t) :
    t.resets = s.resets ∧ t.host = s.host ∧ t.ticks = s.ticks ∧ t.input = s.input := by
  cases h <;> exact ⟨rfl, rfl, rfl, rfl⟩

/-- R36: a TICK latches, and no other command writes `prev` or `filt`. -/
theorem Writes.latch_eq (h : Writes s i t) (hs : s.prev = s.filt) : t.prev = t.filt := by
  cases h with
  | tick raw => exact afterTick_prev raw s
  | _ => exact hs

/-- Every write to `DISP` goes through the canonical memory operations. -/
theorem Writes.disp_canonical (h : Writes s i t) (hs : Memory.wf s.resets s.disp = true) :
    Memory.wf t.resets t.disp = true := by
  cases h with
  | display => exact withDisplay_wf hs
  | _ => exact hs

end

/-- Settles O39: one frame lemma for each register group. -/
theorem singleWriterOwnership : Obligations.SingleWriterOwnership := by
  intro i s t h
  have hw := writes_of_exec h
  exact ⟨hw.sampling_eq, hw.edge_eq, hw.digits_eq, hw.ddig_eq, hw.tAct_eq, hw.deadline_eq, hw.disp_eq,
    hw.outside_eq⟩

/-- Settles O40: the reset values agree, and every command keeps the latch. -/
theorem latchEquality : Obligations.LatchEquality :=
  ⟨rfl, fun _ _ _ h => (writes_of_exec h).latch_eq⟩

/-! ### The filter (10_state.md R35) -/

/-- R102: the filtered bit leaves its old value only on an all-zero or an all-one history. -/
theorem filteredBit_ne {h : Byte} {old : Bool} (hne : filteredBit h old ≠ old) :
    (filteredBit h old = false ∧ h = 0x00#8) ∨ (filteredBit h old = true ∧ h = 0xFF#8) := by
  unfold filteredBit at hne ⊢
  split_ifs at hne ⊢ with h0 h1
  · exact .inl ⟨rfl, h0⟩
  · exact .inr ⟨rfl, h1⟩
  · exact absurd rfl hne

/-- Settles O14: only TICK writes `filt`, and there each bit is the filtered bit of the new history. -/
theorem filterChangesOnlyAtAllZeroOrAllOne : Obligations.FilterChangesOnlyAtAllZeroOrAllOne := by
  intro i s t k h hne
  cases writes_of_exec h with
  | tick raw =>
    rw [afterTick_filt] at hne ⊢
    exact ⟨⟨raw, rfl⟩, filteredBit_ne hne⟩
  | _ => exact absurd rfl hne

end Sys2Proof.Proofs.CommandWrites
end

/-! The invariant `Inv` and its preservation by every kind of step. Only the host's operations put anything on the
list of pending operations; all but one of them work on a list that ends no flash and leave it so. -/
section
namespace Sys2Proof.Proofs.Invariant
open Sys2Proof Sys2Proof.Machine Sys2Proof.Proofs.CommandWrites

/-! ### Reset -/

/-- The reset values have the invariant, whatever is still to be presented and however often the block was reset. -/
theorem inv_reset (resets : Nat) (input : List Instant) :
    Inv { State.reset with resets := resets, input := input } where
  displayCanonical := Memory.wf_nil resets
  latchEqual := rfl
  hostLegal := rfl
  flashInOrder := rfl

/-- Settles O42: the reset values before any reset event, with nothing presented. -/
theorem resetHasTheInvariant : Obligations.ResetHasTheInvariant := inv_reset 0 []

/-! ### Commands -/

theorem inv_exec {i : Instr} {s t : State} (hs : Inv s) (h : exec i s = .next t) : Inv t := by
  have hw := writes_of_exec h
  obtain ⟨-, hhost, -, -⟩ := hw.outside_eq
  exact {
    displayCanonical := hw.disp_canonical hs.displayCanonical
    latchEqual := hw.latch_eq hs.latchEqual
    hostLegal := hhost ▸ hs.hostLegal
    flashInOrder := hhost ▸ hs.flashInOrder }

/-! ### Writes outside the block -/

section
variable {s : State}

theorem inv_setInput (hs : Inv s) (l : List Instant) : Inv (s.setInput l) :=
  ⟨hs.displayCanonical, hs.latchEqual, hs.hostLegal, hs.flashInOrder⟩

theorem inv_setTicks (hs : Inv s) (t : TickSource) : Inv (s.setTicks t) :=
  ⟨hs.displayCanonical, hs.latchEqual, hs.hostLegal, hs.flashInOrder⟩

theorem inv_setHost (hs : Inv s) {h : HostState} (hl : h.todo.all hostOpLegal = true)
    (hf : flashEndsInOrder h = true) : Inv (s.setHost h) :=
  ⟨hs.displayCanonical, hs.latchEqual, hl, hf⟩

/-- While no end of a flash is pending, the rest of the host's state is free. -/
theorem inv_setHost_of_todo_eq (hs : Inv s) (hk : keepsFlash s.host.todo = true) {h : HostState}
    (ht : h.todo = s.host.todo) : Inv (s.setHost h) :=
  inv_setHost hs (ht ▸ hs.hostLegal) (flashEndsInOrder_of_keepsFlash (ht ▸ hk))

theorem all_legal_append {ops rest : List HostOp} (ho : ops.all hostOpLegal = true)
    (hr : rest.all hostOpLegal = true) : (ops ++ rest).all hostOpLegal = true := by
  rw [List.all_append, ho, hr, Bool.and_self]

/-- Legal operations that end no flash may be planned where none is being ended. -/
theorem inv_plan (hs : Inv s) (hk : keepsFlash s.host.todo = true) {ops : List HostOp}
    (hl : ops.all hostOpLegal = true) (ho : keepsFlash ops = true) : Inv (plan ops s) :=
  inv_setHost hs (all_legal_append hl hs.hostLegal)
    (flashEndsInOrder_of_keepsFlash (by rw [keepsFlash_append, ho, hk, Bool.and_self]))

/-- The same with another write to the host's state before it. -/
theorem inv_plan_setHost (hs : Inv s) (hk : keepsFlash s.host.todo = true) {h : HostState}
    (ht : h.todo = s.host.todo) {ops : List HostOp} (hl : ops.all hostOpLegal = true)
    (ho : keepsFlash ops = true) : Inv (plan ops (s.setHost h)) :=
  inv_plan (inv_setHost_of_todo_eq hs hk ht) (ht ▸ hk) hl ho

/-! ### The host's operations, on a list that ends no flash -/

theorem inv_overlayStart (hs : Inv s) (hk : keepsFlash s.host.todo = true) : Inv (overlayStart s) := by
  unfold overlayStart
  split
  · refine inv_plan_setHost hs hk ?_ ?_ ?_ <;> rfl
  · exact hs
  · exact hs

theorem inv_overlayPoll (hs : Inv s) (hk : keepsFlash s.host.todo = true) : Inv (overlayPoll s) := by
  unfold overlayPoll
  split
  · exact hs
  · exact inv_plan hs hk rfl rfl
  · exact inv_plan hs hk rfl rfl

theorem inv_overlayOnCheck (hs : Inv s) (hk : keepsFlash s.host.todo = true) : Inv (overlayOnCheck s) := by
  unfold overlayOnCheck
  split
  · split
    · exact inv_setHost_of_todo_eq hs hk rfl
    · exact hs
  · exact hs
  · exact hs

/-- The one place where the end of a flash becomes pending: in OFF, behind its last RENDER, the third cycle counted. -/
theorem inv_planFlashEnd (hs : Inv s) (hk : keepsFlash s.host.todo = true) (hoff : s.host.phase = .off)
    (hcycles : s.host.cycles.val = 3) : Inv (plan [.issue .render, .endFlash] s) := by
  have hcomplete : flashComplete s.host = true := (flashComplete_iff _).2 ⟨hoff, hcycles⟩
  exact inv_setHost hs (all_legal_append rfl hs.hostLegal) (Bool.and_eq_true_iff.2 ⟨hcomplete, hk⟩)

theorem inv_overlayOffCheck (hs : Inv s) (hk : keepsFlash s.host.todo = true) : Inv (overlayOffCheck s) := by
  unfold overlayOffCheck
  split
  case h_1 hoff =>
    split_ifs with hdue hlast
    · have hcount : (countCycle s.host.cycles).val = 3 :=
        Nat.le_antisymm (Nat.le_of_lt_succ (Fin.isLt _)) hlast
      exact inv_planFlashEnd (inv_setHost_of_todo_eq hs hk rfl) hk hoff hcount
    · refine inv_plan_setHost hs hk ?_ ?_ ?_ <;> rfl
    · exact hs
  case h_2 => exact hs
  case h_3 => exact hs

theorem inv_goto (hs : Inv s) (hk : keepsFlash s.host.todo = true) (d : DState) : Inv (goto d s) :=
  inv_setHost_of_todo_eq hs hk rfl

theorem inv_operateOrFlash (hs : Inv s) (hk : keepsFlash s.host.todo = true) (allowed : Bool) {op : Instr}
    (hop : mainMayIssue op = true) (tone : Preset) : Inv (operateOrFlash allowed op tone s) := by
  have htone : mainMayIssue (presetInstr tone) = true := by cases tone <;> rfl
  unfold operateOrFlash
  split
  · exact inv_plan hs hk (by simp [hostOpLegal, hop, htone]) rfl
  · exact inv_plan hs hk rfl rfl

theorem inv_dispatchStep (hs : Inv s) (hk : keepsFlash s.host.todo = true) : Inv (dispatchStep s) := by
  unfold dispatchStep
  split
  case h_1 => split <;> exact inv_goto hs hk _
  case h_2 => exact inv_operateOrFlash hs hk _ rfl _
  case h_3 => exact inv_operateOrFlash hs hk _ rfl _
  case h_4 => exact inv_operateOrFlash hs hk _ rfl _
  case h_5 => exact inv_operateOrFlash hs hk _ rfl _
  case h_6 => split <;> exact inv_goto hs hk _
  case h_7 => exact inv_plan hs hk rfl rfl

/-! ### What is presented next -/

/-- The state an event leaves, or in which its command word is presented. -/
def stateOf : Fetched → State
  | .command _ s => s
  | .quiet s => s

theorem inv_hostOp (op : HostOp) (hs : Inv s) (hk : keepsFlash s.host.todo = true) : Inv (stateOf (hostOp op s)) := by
  cases op with
  | setOwnState => exact inv_setHost_of_todo_eq hs hk rfl
  | issue i => exact hs
  | enableTicks => exact inv_setTicks hs _
  | overlayStart => exact inv_overlayStart hs hk
  | overlayPoll => exact inv_overlayPoll hs hk
  | overlayOnCheck => exact inv_overlayOnCheck hs hk
  | overlayOffCheck => exact inv_overlayOffCheck hs hk
  | endFlash => exact inv_setHost_of_todo_eq hs hk rfl
  | dispatch => exact inv_dispatchStep hs hk
  | goto d => exact inv_goto hs hk d

/-- The host does the first of its pending operations. Either none behind it ends a flash, or it is the last RENDER
of a flash and the end of the flash stays pending, now in front. -/
theorem inv_pendingOp {op : HostOp} {rest : List HostOp} (hs : Inv s) (ht : s.host.todo = op :: rest) :
    Inv (stateOf (hostOp op (s.setHost { s.host with todo := rest }))) := by
  have hlegal : rest.all hostOpLegal = true := by
    have hall := hs.hostLegal
    rw [ht, List.all_cons, Bool.and_eq_true] at hall
    exact hall.2
  obtain ⟨rfl, more, rfl, hcomplete, hmore⟩ | ⟨hk, -, -⟩ := flashEndsInOrder_next hs.flashInOrder ht
  · exact inv_setHost hs hlegal (Bool.and_eq_true_iff.2 ⟨hcomplete, hmore⟩)
  · exact inv_hostOp op (inv_setHost hs hlegal (flashEndsInOrder_of_keepsFlash hk)) hk

theorem inv_hostTurn (hs : Inv s) : Inv (stateOf (hostTurn s)) := by
  cases ht : s.host.todo with
  | nil =>
    have hturn : hostTurn s =
        hostOp (.issue .tonePoll) (s.setHost { s.host with todo := [.overlayPoll, .dispatch] }) := by
      simp [hostTurn, pendingOps, ht, mainLoop]
    rw [hturn]
    exact inv_setHost hs rfl rfl
  | cons op rest =>
    have hturn : hostTurn s = hostOp op (s.setHost { s.host with todo := rest }) := by
      simp [hostTurn, pendingOps, ht]
    rw [hturn]
    exact inv_pendingOp hs ht

theorem inv_mainAct (a : MainAct) (hs : Inv s) : Inv (stateOf (mainAct a s)) := by
  cases a with
  | command w => exact hs
  | host => exact inv_hostTurn hs
  | suppressTicks => exact inv_setTicks hs _
  | resumeTicks => exact inv_setTicks hs _

theorem inv_fireTick (raw : Nibble) (hs : Inv s) : Inv (stateOf (fireTick raw s)) := by
  unfold fireTick
  split
  · exact hs
  · exact inv_setTicks hs _

theorem inv_fetch (hs : Inv s) : Inv (stateOf (fetch s)) := by
  obtain ⟨raw, more, -, -, hf⟩ | ⟨-, hf⟩ | ⟨rest, -, hf⟩ | ⟨rest, -, hf⟩ | ⟨a, rest, -, hf⟩ |
      ⟨raw, a, rest, -, hf⟩ := fetch_cases (rfl : fetch s = fetch s) <;> rw [hf]
  · exact inv_setTicks hs _
  · exact hs
  · exact inv_reset _ _
  · exact inv_setInput hs _
  · exact inv_mainAct a (inv_setInput hs _)
  · exact inv_fireTick raw (inv_setInput hs _)

end

/-- Settles O41: what is presented keeps the invariant, and so does the command that is run on it. -/
theorem everyStepKeepsTheInvariant : Obligations.EveryStepKeepsTheInvariant := by
  intro s t hs h
  have hnext := inv_fetch hs
  obtain ⟨w, s', hf, hexec⟩ | hf := step_cases h
  · rw [hf] at hnext
    exact inv_exec hnext hexec
  · rw [hf] at hnext
    exact hnext

end Sys2Proof.Proofs.Invariant
end

/-! The reset values, the output ports and the word presented by `withFetchWord` (spec/10_state.md R20, R32, R33). -/
section
namespace Sys2Proof.Proofs.StateInterface
open Sys2Proof Sys2Proof.Machine

/-- Settles O47: every field of the reset state, `DISP` through MemRead on the empty list. -/
theorem resetValues : Obligations.ResetValues := by
  have hhist : ∀ k : Channel, State.reset.hist.get k = 0xFF#8 := by decide
  have hdisp : ∀ a, a < 2 → memRead .disp a State.reset = .ok (Config.dispAtReset 0 a) := by
    intro a ha
    rw [memRead_disp, if_pos ha]
    rfl
  exact ⟨hhist, rfl, rfl, rfl, rfl, rfl, rfl, rfl, rfl, rfl, hdisp, rfl, rfl⟩

/-! ### Ports -/

/-- R37: `tone_on_o` is `t_act`. -/
theorem toneOnO_eq_one_iff (s : State) : toneOnO s = 1#1 ↔ s.tAct = true := by
  unfold toneOnO
  cases s.tAct <;> decide

/-- A digit port never shows more than 9, since a digit is a number below 10. -/
theorem digitCode_le_nine (d : Digit) : (digitCode d).toNat ≤ 9 := by
  rw [digitCode_toNat]
  exact Nat.le_of_lt_succ d.isLt

/-- Settles O25: each port is a projection of the state, and none projects a hidden register. -/
theorem outputPortsShowTheState : Obligations.OutputPortsShowTheState := fun s =>
  ⟨rfl, rfl, rfl, toneOnO_eq_one_iff s, digitCode_toNat s.idig, digitCode_toNat s.ddig, digitCode_le_nine s.idig,
    digitCode_le_nine s.ddig, rfl, rfl, fun _ => rfl⟩

/-! ### `withFetchWord` -/

/-- A number below 2^36 in 40 bits is read as the command word it is. -/
theorem decodeTableWord_eq {n : Nat} (hn : n < 2 ^ 36) :
    decodeTableWord 40 n = some (decode (BitVec.ofNat 36 n)) := by
  have hmod : n % 2 ^ 40 = n := Nat.mod_eq_of_lt (by omega)
  simp only [decodeTableWord, decodeNumber, hmod, if_pos hn]

/-- The word stands on `cmd` next, on the state without the firings that would go before it. -/
theorem fetch_withFetchWord (s : State) (nbits w : Nat) :
    fetch (s.withFetchWord nbits w) = .command (BitVec.ofNat 36 (w % 2 ^ nbits))
      (s.setTicks { s.ticks with held := if s.ticks.enabled then [] else s.ticks.held }) := by
  cases he : s.ticks.enabled <;>
    simp [fetch, State.withFetchWord, he, nextInstant, mainAct, State.setInput, State.setTicks]

theorem step_withFetchWord (s : State) {n : Nat} (hn : n < 2 ^ 36) :
    step (s.withFetchWord 40 n) = exec (decode (BitVec.ofNat 36 n))
      (s.setTicks { s.ticks with held := if s.ticks.enabled then [] else s.ticks.held }) := by
  have hmod : n % 2 ^ 40 = n := Nat.mod_eq_of_lt (by omega)
  rw [step, fetch_withFetchWord, hmod]

/-- With no deferred firing due there is nothing to take away. -/
theorem heldAfter_of_noTickDue {s : State} (h : noTickDue s = true) :
    (if s.ticks.enabled then [] else s.ticks.held) = s.ticks.held := by
  split
  case isTrue he => simp_all [noTickDue]
  case isFalse => rfl

/-- A deferred firing is due only while the tick source is enabled. -/
theorem enabled_of_tickDue {s : State} (h : noTickDue s = false) : s.ticks.enabled = true := by
  simp only [noTickDue, Bool.or_eq_false_iff, Bool.not_eq_false'] at h
  exact h.1

/-- Settles O48: the decoder reads the word, and the step runs it on the state `fetch` presents it in. -/
theorem withFetchWordRunsTheWord : Obligations.WithFetchWordRunsTheWord := by
  refine fun s n hn => ⟨decodeTableWord_eq hn, fun hnone => ?_, fun hdue => ?_⟩
  · rw [step_withFetchWord s hn, heldAfter_of_noTickDue hnone]
    rfl
  · rw [step_withFetchWord s hn, if_pos (enabled_of_tickDue hdue)]
    rfl

end Sys2Proof.Proofs.StateInterface
end

/-! The order in which steps are taken (spec/20_memory.md R56 to R59, 60_exceptions.md R224): what `fetch` presents,
said once per form of the input, and the step that runs it. -/
section
namespace Sys2Proof.Proofs.ArrivalOrder
open Sys2Proof Sys2Proof.Machine

section
variable {s s' : State}

/-! ### The step over what is presented -/

theorem step_of_fetch_command {w : CmdWord} (h : fetch s = .command w s') : step s = exec (decode w) s' := by
  rw [step, h]

theorem step_of_fetch_quiet (h : fetch s = .quiet s') : step s = .next s' := by
  rw [step, h]

/-- R71, R75: the word of a TICK reads back as that TICK; its sample stands in the four low bits of `arg`. -/
theorem decode_encode_tick (raw : Nibble) : decode (encode (.tick raw)) = .tick raw := by
  have hraw : rawOf (raw.setWidth 32) = raw := by revert raw; decide
  obtain ⟨hop, harg⟩ := Laws.CanonicalFields.fields (.tick raw)
  rw [decode, hop, harg]
  exact congrArg Instr.tick hraw

theorem step_of_deliverTick {raw : Nibble} (h : fetch s = deliverTick raw s') : step s = exec (.tick raw) s' := by
  rw [step_of_fetch_command h, decode_encode_tick]

/-! ### Deferred firings before the input -/

/-- R224: once the source is enabled, the oldest deferred firing is presented, whatever the input holds. -/
theorem fetch_of_held {raw : Nibble} {more : List Nibble} (he : s.ticks.enabled = true)
    (hh : s.ticks.held = raw :: more) :
    fetch s = deliverTick raw (s.setTicks { enabled := true, held := more }) := by
  simp only [fetch, he, hh]

theorem noTickDue_of_suppressed (h : s.ticks.enabled = false) : noTickDue s = true := by
  simp [noTickDue, h]

/-- With no deferred firing due, the source is suppressed or nothing is held, and the input is next. -/
theorem fetch_of_noTickDue (h : noTickDue s = true) : fetch s = nextInstant s := by
  unfold fetch
  split
  case h_1 he hh => simp [noTickDue, he, hh] at h
  case h_2 => rfl
  case h_3 => rfl

/-! ### One instant of the input -/

section
variable {rest : List Instant} (hdue : noTickDue s = true)
include hdue

theorem fetch_of_empty (h : s.input = []) : fetch s = .quiet s := by
  rw [fetch_of_noTickDue hdue, nextInstant, h]

theorem fetch_of_idle (h : s.input = .present none none :: rest) : fetch s = .quiet (s.setInput rest) := by
  rw [fetch_of_noTickDue hdue, nextInstant, h]

theorem fetch_of_act {a : MainAct} (h : s.input = .present none (some a) :: rest) :
    fetch s = mainAct a (s.setInput rest) := by
  rw [fetch_of_noTickDue hdue, nextInstant, h]

/-- R58: the firing of an instant is taken first, and an act of the same instant stays in the input. -/
theorem fetch_of_firing {raw : Nibble} {a : Option MainAct} (h : s.input = .present (some raw) a :: rest) :
    fetch s = fireTick raw (s.setInput (afterFiring a rest)) := by
  rw [fetch_of_noTickDue hdue, nextInstant, h]

end

/-- A firing while the source is enabled is a TICK of its sample. -/
theorem step_of_firing {raw : Nibble} {a : Option MainAct} {rest : List Instant} (hdue : noTickDue s = true)
    (he : s.ticks.enabled = true) (h : s.input = .present (some raw) a :: rest) :
    step s = exec (.tick raw) (s.setInput (afterFiring a rest)) := by
  apply step_of_deliverTick
  rw [fetch_of_firing hdue h, fireTick, State.setInput_ticks, if_pos he]

/-- R59: a firing while the source is suppressed is put behind the firings already deferred. -/
theorem step_of_suppressed_firing {raw : Nibble} {a : Option MainAct} {rest : List Instant}
    (he : s.ticks.enabled = false) (h : s.input = .present (some raw) a :: rest) :
    step s = .next
      ((s.setInput (afterFiring a rest)).setTicks { enabled := false, held := s.ticks.held ++ [raw] }) := by
  apply step_of_fetch_quiet
  simp [fetch_of_firing (noTickDue_of_suppressed he) h, fireTick, he]

end

/-! ### The statements -/

/-- Settles O43: `step` over both answers of `fetch`. -/
theorem stepRunsTheDecodedCommand : Obligations.StepRunsTheDecodedCommand :=
  fun _ _ _ => ⟨step_of_fetch_command, step_of_fetch_quiet⟩

/-- Settles O44: one clause per form of the input that is due. -/
theorem arrivalOrderAndTheTie : Obligations.ArrivalOrderAndTheTie := by
  intro s w raw a rest hdue
  refine ⟨fun hword => ?word, fun he hfiring => ?firing, fun he htie => ?tie, fun hidle => ?idle,
    fun hempty => ?empty⟩
  case word => exact step_of_fetch_command (fetch_of_act hdue hword)
  case firing => rw [step_of_firing hdue he hfiring]; rfl
  case tie => rw [step_of_firing hdue he htie]; rfl
  case idle => exact step_of_fetch_quiet (fetch_of_idle hdue hidle)
  case empty => exact step_of_fetch_quiet (fetch_of_empty hdue hempty)

/-- Settles O45: a firing is deferred while the source is suppressed and delivered, oldest first, once it is enabled;
opening and closing a critical section write the one flag. -/
theorem suppressedTicksAreDeferred : Obligations.SuppressedTicksAreDeferred := by
  refine ⟨fun s raw a rest he hfiring => ?deferred, fun s raw more he hheld => ?delivered,
    fun s rest hdue => ⟨fun hopen => ?opened, fun hclose => ?closed⟩⟩
  case deferred =>
    refine ⟨_, step_of_suppressed_firing he hfiring, rfl, ?_, ?_⟩
    · rintro rfl; rfl
    · rintro act rfl; rfl
  case delivered => exact step_of_deliverTick (fetch_of_held he hheld)
  case opened => exact step_of_fetch_quiet (fetch_of_act hdue hopen)
  case closed => exact step_of_fetch_quiet (fetch_of_act hdue hclose)

end Sys2Proof.Proofs.ArrivalOrder
end

/-! The command word (spec/30_encoding.md R70 to R76, R80, R82): what the decoder reads from each field, and the
round trips between commands and words that follow. -/
section
namespace Sys2Proof.Proofs.CommandWord
open Sys2Proof Sys2Proof.Machine Sys2Proof.Proofs.ArrivalOrder

/-! ### The two fields of a word -/

@[simp] theorem opcodeOf_append (op : Opcode) (arg : Arg) : opcodeOf (op ++ arg) = op :=
  BitVec.extractLsb'_append_eq_left

@[simp] theorem argOf_append (op : Opcode) (arg : Arg) : argOf (op ++ arg) = arg :=
  BitVec.extractLsb'_append_eq_right

theorem opcodeOf_append_argOf (w : CmdWord) : opcodeOf w ++ argOf w = w :=
  (BitVec.extractLsb'_append_extractLsb'_eq_extractLsb' rfl).trans BitVec.extractLsb'_eq_self

theorem decode_append (op : Opcode) (arg : Arg) : decode (op ++ arg) = decodeOp op.toFin arg := by
  rw [decode, opcodeOf_append, argOf_append]

/-! ### The operand fields of `arg` -/

theorem periodOf_append (period : Period) (dur : Duration) : periodOf (period ++ dur) = period :=
  BitVec.extractLsb'_append_eq_left

theorem durOf_append (period : Period) (dur : Duration) : durOf (period ++ dur) = dur :=
  BitVec.extractLsb'_append_eq_right

theorem periodOf_append_durOf (arg : Arg) : periodOf arg ++ durOf arg = arg :=
  (BitVec.extractLsb'_append_extractLsb'_eq_extractLsb' rfl).trans BitVec.extractLsb'_eq_self

/-- Reading `raw` and writing it back clears the 28 bits TICK ignores: both are the remainder modulo 2^4. -/
theorem setWidth_rawOf (arg : Arg) : (rawOf arg).setWidth 32 = arg &&& 0x0000000F#32 := by
  have hraw : ((rawOf arg).setWidth 32).toNat = arg.toNat % 2 ^ 4 := by
    simp only [rawOf, BitVec.toNat_setWidth, BitVec.extractLsb'_toNat, Nat.shiftRight_zero]
    omega
  have hmask : (arg &&& 0x0000000F#32).toNat = arg.toNat % 2 ^ 4 := Nat.and_two_pow_sub_one_eq_mod _ 4
  exact BitVec.eq_of_toNat_eq (hraw.trans hmask.symm)

/-! ### What a decoded word holds -/

theorem opcode_decodeOp (op : Fin 16) (arg : Arg) : (decodeOp op arg).opcode = BitVec.ofFin op := by
  fin_cases op <;> rfl

theorem opcode_decode (w : CmdWord) : (decode w).opcode = opcodeOf w := opcode_decodeOp _ _

/-- Only TICK and TONE_PLAY read operand bits; every other row reads none. -/
theorem operandField_decodeOp (op : Fin 16) (arg : Arg) :
    (decodeOp op arg).operandField = arg &&& usedArgBits (BitVec.ofFin op) := by
  match op with
  | ⟨0x1, _⟩ => exact setWidth_rawOf arg
  | ⟨0xC, _⟩ => exact (periodOf_append_durOf arg).trans BitVec.and_allOnes.symm
  | ⟨0x0, _⟩ | ⟨0x2, _⟩ | ⟨0x3, _⟩ | ⟨0x4, _⟩ | ⟨0x5, _⟩ | ⟨0x6, _⟩ | ⟨0x7, _⟩ | ⟨0x8, _⟩ | ⟨0x9, _⟩ | ⟨0xA, _⟩
  | ⟨0xB, _⟩ | ⟨0xD, _⟩ | ⟨0xE, _⟩ | ⟨0xF, _⟩ => exact BitVec.and_zero.symm
  | ⟨n + 16, h⟩ => exact absurd h (by omega)

theorem operandField_decode (w : CmdWord) :
    (decode w).operandField = argOf w &&& usedArgBits (opcodeOf w) := operandField_decodeOp _ _

/-! ### The round trips -/

theorem decode_encode_tonePlay (period : Period) (dur : Duration) :
    decode (encode (.tonePlay period dur)) = .tonePlay period dur := by
  rw [encode, decode_append]
  exact congrArg₂ Instr.tonePlay (periodOf_append period dur) (durOf_append period dur)

theorem decode_encode (i : Instr) : decode (encode i) = i := by
  cases i with
  | tick raw => exact decode_encode_tick raw
  | tonePlay period dur => exact decode_encode_tonePlay period dur
  | _ => rfl

theorem encode_decode (w : CmdWord) : encode (decode w) = canonicalWord w := by
  rw [encode, opcode_decode, operandField_decode, canonicalWord]

/-- Settles O1: each operand is read back from the bits it was written to. -/
theorem decodeOfEncodeIsTheCommand : Obligations.DecodeOfEncodeIsTheCommand := decode_encode

/-- Settles O2: the decoded command has the word's opcode and its used operand bits. -/
theorem encodeOfDecodeIsTheCanonicalWord : Obligations.EncodeOfDecodeIsTheCanonicalWord := encode_decode

theorem canonicalWord_encode (i : Instr) : canonicalWord (encode i) = encode i := by
  rw [← encode_decode, decode_encode]

theorem decode_canonicalWord (w : CmdWord) : decode (canonicalWord w) = decode w := by
  rw [← encode_decode, decode_encode]

/-- Settles O3: a word decodes as its canonical form does. -/
theorem ignoredBitsDoNotMatter : Obligations.IgnoredBitsDoNotMatter := by
  refine ⟨canonicalWord_encode, fun w w' h => ?_⟩
  calc decode w = decode (canonicalWord w) := (decode_canonicalWord w).symm
    _ = decode (canonicalWord w') := by rw [h]
    _ = decode w' := decode_canonicalWord w'

/-! ### Selection by the opcode alone (R74, R76) -/

theorem shifted_opcode (op : Opcode) : op.setWidth 36 <<< 32 = op ++ 0#32 := by
  revert op; decide

/-- The mask of R74 keeps the opcode field and clears the operand field. -/
theorem and_opcodeMask (w : CmdWord) : w &&& 0xF00000000#36 = opcodeOf w ++ 0#32 := by
  have hmask : 0xF00000000#36 = BitVec.allOnes 4 ++ 0#32 := rfl
  calc w &&& 0xF00000000#36 = (opcodeOf w ++ argOf w) &&& (BitVec.allOnes 4 ++ 0#32) := by
        rw [opcodeOf_append_argOf, hmask]
    _ = opcodeOf w ++ 0#32 := by rw [BitVec.and_append, BitVec.and_allOnes, BitVec.and_zero]

theorem opcodeOf_eq_iff_mask (w : CmdWord) (op : Opcode) :
    opcodeOf w = op ↔ w &&& 0xF00000000#36 = op.setWidth 36 <<< 32 := by
  rw [and_opcodeMask, shifted_opcode, BitVec.append_left_inj]

theorem wf_eq_false_iff (i : Instr) :
    i.wf = false ↔ i.opcode = 0x3#4 ∨ i.opcode = 0xB#4 ∨ i.opcode = 0xE#4 ∨ i.opcode = 0xF#4 := by
  cases i <;> simp [Instr.wf, Instr.opcode]

/-- Settles O4: the decoded command carries the opcode field, and the mask shows exactly that field. -/
theorem opcodeAloneSelectsTheCommand : Obligations.OpcodeAloneSelectsTheCommand := by
  refine fun w => ⟨opcode_decode w, fun op => ?_, wf_eq_false_iff (decode w)⟩
  rw [opcode_decode, opcodeOf_eq_iff_mask]

/-! ### Operand assembly (R72) -/

theorem decode_of_opcode_tick {w : CmdWord} (h : opcodeOf w = 0x1#4) : decode w = .tick (w.extractLsb' 0 4) := by
  have hraw : rawOf (argOf w) = w.extractLsb' 0 4 := BitVec.extractLsb'_extractLsb'_of_le (by decide)
  rw [decode, h, ← hraw]
  rfl

theorem decode_of_opcode_tonePlay {w : CmdWord} (h : opcodeOf w = 0xC#4) :
    decode w = .tonePlay (w.extractLsb' 16 16) (w.extractLsb' 0 16) := by
  have hperiod : periodOf (argOf w) = w.extractLsb' 16 16 := BitVec.extractLsb'_extractLsb'_of_le (by decide)
  have hdur : durOf (argOf w) = w.extractLsb' 0 16 := BitVec.extractLsb'_extractLsb'_of_le (by decide)
  rw [decode, h, ← hperiod, ← hdur]
  rfl

/-- Zero extension: 16 bits fit in 32. -/
theorem durationMs_toNat (dur : Duration) : (durationMs dur).toNat = dur.toNat :=
  BitVec.toNat_setWidth_of_le (by decide)

/-- Settles O6: a field of `arg` is the same bits of the word. -/
theorem operandAssembly : Obligations.OperandAssembly :=
  ⟨fun _ => decode_of_opcode_tick, fun _ => decode_of_opcode_tonePlay, rawBit_eq, durationMs_toNat⟩

/-! ### Worked encodings and the tone presets (R80, R82) -/

/-- R76, R221: whatever its operand field, opcode 0x3 is refused. -/
theorem exec_decode_reserved3 (arg : Arg) (s : State) :
    exec (decode (0x3#4 ++ arg)) s = .refused (.illegalCommand 0x3#4) := by
  rw [decode_append]
  rfl

/-- Settles O5: the table is checked by encoding, and each word then decodes back to its command. -/
theorem workedEncodings : Obligations.WorkedEncodings := by
  refine ⟨fun p hp => ?_, exec_decode_reserved3⟩
  have hencode : encode p.1 = p.2 := by revert p; decide
  exact ⟨hencode, hencode ▸ decode_encode p.1⟩

/-- The word of a TONE_PLAY is `{0xC, period, dur}`. -/
theorem encode_tonePlay (period : Period) (dur : Duration) :
    encode (.tonePlay period dur) = 0xC#4 ++ period ++ dur := by
  rw [BitVec.append_assoc]
  rfl

/-- Settles O31: the presets are TONE_PLAYs by definition; the order is what the periods are typed with. -/
theorem tonePresets : Obligations.TonePresets :=
  ⟨rfl, rfl, rfl, encode_tonePlay _ _, encode_tonePlay _ _, encode_tonePlay _ _,
    Config.presetPeriods.inc_lt_dec, Config.presetPeriods.dec_lt_err⟩

end Sys2Proof.Proofs.CommandWord
end

/-! What the main agent puts on `cmd` (spec/30_encoding.md R77): a word of its own, or the encoding of a command
pending in the reference host's program. -/
section
namespace Sys2Proof.Proofs.Issuers
open Sys2Proof Sys2Proof.Machine Sys2Proof.Proofs.ArrivalOrder Sys2Proof.Proofs.CommandWord

section
variable {s s' : State} {w : CmdWord}

/-- Of the host's operations only `issue` presents a word. -/
theorem issue_of_hostOp_command {op : HostOp} (h : hostOp op s = .command w s') :
    ∃ i, op = .issue i ∧ w = encode i := by
  cases op with
  | issue i =>
    injection h with hw
    exact ⟨i, rfl, hw.symm⟩
  | _ => exact nomatch h

/-- A word of the host is the encoding of a command its program has pending. -/
theorem pending_of_hostTurn_command (h : hostTurn s = .command w s') :
    ∃ i, HostOp.issue i ∈ pendingOps s ∧ w = encode i := by
  unfold hostTurn at h
  split at h
  case h_1 => exact nomatch h
  case h_2 op rest hops =>
    obtain ⟨i, rfl, hw⟩ := issue_of_hostOp_command h
    exact ⟨i, by simp [hops], hw⟩

/-- The rest of a pass is legal by the invariant; the main loop begins with TONE_POLL and issues nothing else itself. -/
theorem pendingOps_legal (hs : Inv s) : (pendingOps s).all hostOpLegal = true := by
  unfold pendingOps
  split
  case h_1 => rfl
  case h_2 op rest hops => exact hops ▸ hs.hostLegal

theorem mainMayIssue_of_hostTurn (hs : Inv s) (h : hostTurn s = .command w s') :
    mainMayIssue (decode w) = true := by
  obtain ⟨i, hpending, rfl⟩ := pending_of_hostTurn_command h
  rw [decode_encode]
  exact List.all_eq_true.1 (pendingOps_legal hs) _ hpending

theorem mainMayIssue_of_respectsIssuers {v : CmdWord} {rest : List Instant}
    (h : respectsIssuers (.present none (some (.command v)) :: rest) = true) : mainMayIssue (decode v) = true := by
  rw [respectsIssuers, List.all_cons, Bool.and_eq_true] at h
  exact h.1

end

/-- Settles O55: the premise covers a word of the main agent's own, the invariant one of the reference host, and the
critical sections present none. -/
theorem mainAgentPresentsOnlyItsOwnCommands : Obligations.MainAgentPresentsOnlyItsOwnCommands := by
  intro s s' a rest w hs hstream hdue hinput hfetch
  rw [fetch_of_act hdue hinput] at hfetch
  cases a with
  | command v =>
    injection hfetch with hw
    rw [hinput] at hstream
    exact hw ▸ mainMayIssue_of_respectsIssuers hstream
  | host => exact mainMayIssue_of_hostTurn (Invariant.inv_setInput hs rest) hfetch
  | suppressTicks => exact nomatch hfetch
  | resumeTicks => exact nomatch hfetch

end Sys2Proof.Proofs.Issuers
end

/-! Runs of TICKs (spec/30_encoding.md R81, 40_tick_nop.md R91). -/
section
namespace Sys2Proof.Proofs.TickRuns
open Sys2Proof Sys2Proof.Machine

/-- The state after one TICK for each sample of the list, the head first. -/
def afterTicks (rs : List Nibble) (s : State) : State := rs.foldl (fun u raw => afterTick raw u) s

theorem afterTicks_cons (raw : Nibble) (rs : List Nibble) (s : State) :
    afterTicks (raw :: rs) s = afterTicks rs (afterTick raw s) := rfl

/-- A run of TICKs completes from every state. -/
theorem runInstrs_map_tick (rs : List Nibble) (s : State) :
    runInstrs (rs.map Instr.tick) s = .next (afterTicks rs s) := by
  induction rs generalizing s with
  | nil => rfl
  | cons raw rs ih => exact ih (afterTick raw s)

/-- Every TICK adds 10 modulo 2^32, whatever it samples. -/
theorem afterTicks_now_toNat (rs : List Nibble) (s : State) :
    (afterTicks rs s).now.toNat = (s.now.toNat + 10 * rs.length) % 2 ^ 32 := by
  induction rs generalizing s with
  | nil => exact (Nat.mod_eq_of_lt s.now.isLt).symm
  | cons raw rs ih =>
    have hstep : (afterTick raw s).now.toNat = (s.now.toNat + 10) % 2 ^ 32 := by
      rw [afterTick_now, BitVec.toNat_add]
      rfl
    rw [afterTicks_cons, ih, hstep, List.length_cons]
    omega

/-- Settles O60: the expansion is a run of TICKs of one sample. -/
theorem ticksStandsForRepeatedTicks : Obligations.TicksStandsForRepeatedTicks := by
  intro n raw s _
  have hrun : runInstrs (expand (.ticks n raw)) s =
      .next (afterTicks (List.replicate n (BitVec.ofNat 4 raw)) s) := by
    rw [← runInstrs_map_tick, List.map_replicate, expand]
  refine ⟨rfl, _, hrun, ?_⟩
  rw [afterTicks_now_toNat, List.length_replicate]

end Sys2Proof.Proofs.TickRuns
end

/-! TICK and NOP (spec/40_tick_nop.md R90 to R93): what one TICK makes of every register, and that no other command
moves the tick counter. -/
section
namespace Sys2Proof.Proofs.TickNop
open Sys2Proof Sys2Proof.Machine Sys2Proof.Proofs.CommandWrites Sys2Proof.Proofs.CommandWord

/-! ### NOP -/

/-- The decoder ignores the operand field of opcode 0. -/
theorem decode_of_opcode_nop {w : CmdWord} (h : opcodeOf w = 0x0#4) : decode w = .nop := by
  rw [decode, h]
  rfl

theorem exec_nop (s : State) : exec .nop s = .next s := rfl

/-- Settles O8: opcode 0 selects NOP, whose meaning is the state it found. -/
theorem nopChangesNothing : Obligations.NopChangesNothing := ⟨fun _ => decode_of_opcode_nop, exec_nop⟩

/-! ### The registers after a TICK -/

theorem exec_tick (raw : Nibble) (s : State) : exec (.tick raw) s = .next (afterTick raw s) := execTick_eq raw s

/-- R101: `{h[6:0], sample}`. Both sides hold the sample at bit 0 and bit j of `h` at bit j + 1. -/
theorem shiftSample_eq_append (h : Byte) (sample : Bool) :
    shiftSample h sample = h.extractLsb' 0 7 ++ BitVec.ofBool sample := by
  refine BitVec.eq_of_getLsbD_eq fun j hj => ?_
  rw [getLsbD_shiftSample, BitVec.getLsbD_append]
  cases j with
  | zero => simp
  | succ j => simp [hj, Nat.lt_of_succ_lt_succ hj]

theorem afterTick_hist_eq_append (raw : Nibble) (s : State) (k : Channel) :
    (afterTick raw s).hist.get k = (s.hist.get k).extractLsb' 0 7 ++ BitVec.ofBool (raw.getLsbD k.val) :=
  (afterTick_hist raw s k).trans (shiftSample_eq_append _ _)

/-- A TICK writes neither `DISP` nor the count of resets that selects its free bytes. -/
theorem sameDisplay_afterTick (raw : Nibble) (s : State) : SameDisplay s (afterTick raw s) := fun _ => rfl

/-- Settles O9: one rule for each register TICK writes, and the frame. -/
theorem tickResult : Obligations.TickResult :=
  ⟨fun _ => decode_of_opcode_tick, fun raw s =>
    ⟨afterTick raw s, exec_tick raw s, afterTick_now raw s, afterTick_hist_eq_append raw s, afterTick_filt raw s,
      afterTick_edge raw s, afterTick_prev raw s, afterTick_frame raw s, sameDisplay_afterTick raw s⟩⟩

/-! ### The tick counter (R91) -/

theorem afterTick_now_toNat (raw : Nibble) (s : State) :
    (afterTick raw s).now.toNat = (s.now.toNat + 10) % 2 ^ 32 := by
  rw [afterTick_now]
  exact BitVec.toNat_add s.now 10#32

/-- The counter wraps: 0xFFFFFFFA is 6 below 2^32. -/
theorem afterTick_now_of_wrap (raw : Nibble) {s : State} (h : s.now = 0xFFFFFFFA#32) :
    (afterTick raw s).now = 4#32 := by
  rw [afterTick_now, h]
  rfl

/-- Among the writes a command can make, only those of TICK include `now`. -/
theorem now_eq_of_exec {i : Instr} {s t : State} (h : exec i s = .next t) (hi : ∀ raw, i ≠ .tick raw) :
    t.now = s.now := by
  obtain ⟨-, -, -, hnow⟩ := (writes_of_exec h).sampling_eq hi
  exact hnow

/-- Settles O10: the sum modulo 2^32 for TICK, the frame of every other command. -/
theorem onlyTickAdvancesNow : Obligations.OnlyTickAdvancesNow :=
  ⟨fun raw s => ⟨afterTick raw s, exec_tick raw s, afterTick_now_toNat raw s, afterTick_now_of_wrap raw⟩,
    fun _ _ _ => now_eq_of_exec⟩

end Sys2Proof.Proofs.TickNop
end

/-! The debounce filter (spec/41_debounce_filter.md R101 to R104): a history register is the window of the last eight
samples, and the filtered bit leaves its level exactly when the whole window is of the other level. -/
section
namespace Sys2Proof.Proofs.Debounce
open Sys2Proof Sys2Proof.Machine Sys2Proof.Proofs.TickRuns Sys2Proof.Proofs.TickNop

theorem eq_afterTick_of_exec {raw : Nibble} {s t : State} (h : exec (.tick raw) s = .next t) : t = afterTick raw s := by
  rw [exec_tick] at h
  injection h with h
  exact h.symm

theorem eq_afterTicks_of_runInstrs {rs : List Nibble} {s t : State} (h : runInstrs (rs.map Instr.tick) s = .next t) :
    t = afterTicks rs s := by
  rw [runInstrs_map_tick] at h
  injection h with h
  exact h.symm

theorem afterTicks_concat (rs : List Nibble) (raw : Nibble) (s : State) :
    afterTicks (rs ++ [raw]) s = afterTick raw (afterTicks rs s) := List.foldl_concat ..

/-! ### The history register (R101) -/

/-- The newest sample is in bit 0. -/
theorem getLsbD_zero_hist_afterTick (raw : Nibble) (s : State) (k : Channel) :
    ((afterTick raw s).hist.get k).getLsbD 0 = raw.getLsbD k.val := by
  rw [afterTick_hist, getLsbD_shiftSample]
  simp

/-- The bits a run of TICKs has filled are its samples, newest in bit 0; above them stand the newest samples from
before the run. -/
theorem getLsbD_hist_afterTicks (rs : List Nibble) (s : State) (k : Channel) {j : Nat} (hj : j < 8) :
    ((afterTicks rs s).hist.get k).getLsbD j =
      if j < rs.length then (rs.reverse.getD j 0#4).getLsbD k.val else (s.hist.get k).getLsbD (j - rs.length) := by
  induction rs using List.reverseRecOn generalizing j with
  | nil => rfl
  | append_singleton rs raw ih =>
    rw [afterTicks_concat, afterTick_hist, getLsbD_shiftSample, List.reverse_concat, List.length_append,
      List.length_singleton]
    cases j with
    | zero => simp
    | succ j =>
      have hj' : j < 8 := Nat.lt_of_succ_lt hj
      simp [hj, ih hj']

/-- R104: after seven TICKs or fewer, the sample that was the newest before them is still in the register. -/
theorem getLsbD_hist_afterTicks_length {rs : List Nibble} (hlen : rs.length < 8) (s : State) (k : Channel) :
    ((afterTicks rs s).hist.get k).getLsbD rs.length = (s.hist.get k).getLsbD 0 := by
  rw [getLsbD_hist_afterTicks rs s k hlen]
  simp

/-- Settles O11: eight TICKs or more have filled all eight bits. -/
theorem historyIsTheLastEightSamples : Obligations.HistoryIsTheLastEightSamples := by
  intro rs s hlen
  refine ⟨_, runInstrs_map_tick rs s, fun k j hj => ?_⟩
  rw [getLsbD_hist_afterTicks rs s k hj, if_pos (Nat.lt_of_lt_of_le hj hlen)]

/-- A byte is uniform exactly when each of its bits has the level. -/
theorem eq_fill_iff (h : Byte) (b : Bool) : h = BitVec.fill 8 b ↔ ∀ j < 8, h.getLsbD j = b := by
  have hfill : ∀ j < 8, (BitVec.fill 8 b).getLsbD j = b := by revert b; decide
  constructor
  · rintro rfl
    exact hfill
  · intro hbits
    exact BitVec.eq_of_getLsbD_eq fun j hj => (hbits j hj).trans (hfill j hj).symm

/-- R103: the register is uniform exactly when the last eight samples are. -/
theorem hist_afterTicks_eq_fill_iff {rs : List Nibble} (hlen : rs.length = 8) (s : State) (k : Channel) (b : Bool) :
    (afterTicks rs s).hist.get k = BitVec.fill 8 b ↔ ∀ r ∈ rs, r.getLsbD k.val = b := by
  rw [eq_fill_iff]
  simp only [← List.mem_reverse (as := rs), List.forall_mem_iff_getElem, List.length_reverse, hlen]
  refine forall₂_congr fun j hj => ?_
  have hlt : j < rs.length := hlen ▸ hj
  rw [getLsbD_hist_afterTicks rs s k hj, if_pos hlt, List.getD_eq_getElem]

/-! ### The filtered bit (R102 to R104) -/

/-- R102: the filtered bit leaves its level exactly on the uniform history of the other level. -/
theorem filteredBit_eq_not_iff (h : Byte) (b : Bool) : (filteredBit h b = !b) ↔ h = BitVec.fill 8 !b := by
  unfold filteredBit
  split_ifs with h0 h1
  · subst h0
    revert b; decide
  · subst h1
    revert b; decide
  · have hmixed : h ≠ BitVec.fill 8 !b := by
      cases b with
      | false => exact h1
      | true => exact h0
    exact iff_of_false (Bool.self_ne_not b) hmixed

/-- R103: the eighth TICK takes a channel to the other level exactly if all eight sampled that level. -/
theorem filt_eighth_tick_eq_not_iff {pre : List Nibble} (hlen : pre.length = 7) (raw : Nibble) (s : State) (k : Channel)
    {b : Bool} (hheld : (afterTicks pre s).filt.getLsbD k.val = b) :
    ((afterTick raw (afterTicks pre s)).filt.getLsbD k.val = !b) ↔ ∀ r ∈ pre ++ [raw], r.getLsbD k.val = !b := by
  have hlen8 : (pre ++ [raw]).length = 8 := by simp [hlen]
  rw [afterTick_filt, hheld, filteredBit_eq_not_iff, ← afterTicks_concat, hist_afterTicks_eq_fill_iff hlen8]

/-- Settles O12: the two clauses are the two levels. -/
theorem eightIdenticalSamplesFlip : Obligations.EightIdenticalSamplesFlip := by
  intro pre raw k s u t hlen hrun htick
  obtain rfl := eq_afterTicks_of_runInstrs hrun
  obtain rfl := eq_afterTick_of_exec htick
  have hflip (b : Bool) := filt_eighth_tick_eq_not_iff hlen raw s k (b := b)
  exact ⟨hflip true, hflip false⟩

/-- R104: while a sample at the level held is in the register, the register is not uniform at the other level. -/
theorem filt_afterTicks_of_newest {u : State} {k : Channel} {b : Bool} (hnewest : (u.hist.get k).getLsbD 0 = b)
    (hfilt : u.filt.getLsbD k.val = b) {rs : List Nibble} (hlen : rs.length < 8) :
    (afterTicks rs u).filt.getLsbD k.val = b := by
  induction rs using List.reverseRecOn with
  | nil => exact hfilt
  | append_singleton rs raw ih =>
    have hheld : (afterTicks rs u).filt.getLsbD k.val = b := ih (Nat.lt_of_le_of_lt (by simp) hlen)
    have hmixed : (afterTicks (rs ++ [raw]) u).hist.get k ≠ BitVec.fill 8 !b := by
      intro huniform
      have hother := (eq_fill_iff _ _).1 huniform _ hlen
      rw [getLsbD_hist_afterTicks_length hlen, hnewest] at hother
      exact Bool.self_ne_not b hother
    rw [afterTicks_concat] at hmixed ⊢
    rw [afterTick_filt, hheld]
    exact Bool.ne_not.1 (mt (filteredBit_eq_not_iff _ b).1 hmixed)

/-- Settles O13: seven TICKs hold the level, and of eight that sample the other level the last one flips it. -/
theorem oppositeSampleRestartsTheCount : Obligations.OppositeSampleRestartsTheCount := by
  intro raw rs k b s u hraw htick hfilt
  have hnewest : (u.hist.get k).getLsbD 0 = b := by
    rw [eq_afterTick_of_exec htick, getLsbD_zero_hist_afterTick, hraw]
  refine ⟨_, runInstrs_map_tick rs u, fun hlen => filt_afterTicks_of_newest hnewest hfilt (Nat.lt_succ_of_le hlen),
    fun hlen hother => ?_⟩
  rcases List.eq_nil_or_concat' rs with rfl | ⟨pre, last, rfl⟩
  · exact absurd hlen (by decide)
  · have hpre : pre.length = 7 := by simpa using hlen
    have hheld := filt_afterTicks_of_newest hnewest hfilt (rs := pre) (hpre ▸ Nat.lt_succ_self 7)
    rw [afterTicks_concat]
    exact (filt_eighth_tick_eq_not_iff hpre last u k hheld).2 hother

end Sys2Proof.Proofs.Debounce
end

/-! The edge detector (spec/42_edge_detector.md R110 to R115): a TICK adds the presses to the EdgeSet, EDGE_CLR empties
it, and no other command touches it. -/
section
namespace Sys2Proof.Proofs.EdgeDetector
open Sys2Proof Sys2Proof.Machine Sys2Proof.Proofs.CommandWrites Sys2Proof.Proofs.TickNop Sys2Proof.Proofs.Debounce

/-! ### The edge function (R111) -/

/-- Bit by bit: where `prev` is 1 the XOR is the negation of `filt`, and where it is 0 both sides are 0. -/
theorem xor_and_eq_newEdges (prev filt : Nibble) : (prev ^^^ filt) &&& prev = newEdges prev filt := by
  refine BitVec.eq_of_getLsbD_eq fun j hj => ?_
  rw [BitVec.getLsbD_and, BitVec.getLsbD_xor, getLsbD_newEdges prev filt ⟨j, hj⟩]
  cases prev.getLsbD j with
  | false => rw [Bool.and_false, Bool.false_and]
  | true => rw [Bool.true_xor, Bool.and_true, Bool.true_and]

/-- Settles O15: the AND-NOT form is the definition, and the XOR form agrees with it on every bit. -/
theorem edgeFunctionAndItsXorForm : Obligations.EdgeFunctionAndItsXorForm :=
  fun prev filt => ⟨rfl, xor_and_eq_newEdges prev filt, getLsbD_newEdges prev filt⟩

/-! ### TICK accumulates (R110, R112) -/

theorem getLsbD_edge_afterTick (raw : Nibble) (s : State) (k : Channel) :
    (afterTick raw s).edge.getLsbD k.val =
      (s.edge.getLsbD k.val || (s.prev.getLsbD k.val && !(afterTick raw s).filt.getLsbD k.val)) := by
  rw [afterTick_edge, BitVec.getLsbD_or, ← newEdges, getLsbD_newEdges]

/-- Settles O16: the edges come from `prev`, which under the latch is the filtered level before the TICK. -/
theorem tickSetsAnEdgeBitExactlyOnAPress : Obligations.TickSetsAnEdgeBitExactlyOnAPress := by
  intro raw s t hlatch h
  obtain rfl := eq_afterTick_of_exec h
  refine ⟨afterTick_prev raw s, fun k => ?_⟩
  rw [getLsbD_edge_afterTick, hlatch]

/-! ### EDGE_CLR (R114) -/

/-- A decoded word is a function of its opcode and its operand field (30_encoding.md R74). -/
theorem decode_of_opcode {w : CmdWord} {op : Opcode} (h : opcodeOf w = op) :
    decode w = decodeOp op.toFin (argOf w) := by
  rw [decode, h]

theorem exec_edgeClr (s : State) : exec .edgeClr s = .next (s.setEdge 0b0000#4) := rfl

/-- `DISP` and the count of resets that selects its free bytes are not in the EdgeSet. -/
theorem sameDisplay_setEdge (s : State) (v : Nibble) : SameDisplay s (s.setEdge v) := fun _ => rfl

/-- Settles O17: opcode 2 reads no operand bit, and EDGE_CLR is one write to `edge`. -/
theorem edgeClrResult : Obligations.EdgeClrResult :=
  ⟨fun _ => decode_of_opcode, fun s => ⟨exec_edgeClr s, sameDisplay_setEdge s _⟩⟩

/-! ### Sticky bits (R115) -/

/-- Settles O18: of the writes a command can make, TICK only adds to the EdgeSet and all but EDGE_CLR leave it. -/
theorem edgeBitStaysUntilEdgeClr : Obligations.EdgeBitStaysUntilEdgeClr := by
  intro i s t k h hclr hset
  cases writes_of_exec h with
  | tick raw =>
    rw [edgeO] at hset ⊢
    rw [getLsbD_edge_afterTick, hset, Bool.true_or]
  | edgeClr => exact absurd rfl hclr
  | _ => exact hset

end Sys2Proof.Proofs.EdgeDetector
end

/-! The BCD counter (spec/43_bcd_counter.md R121 to R129): what the four counter commands make of the two digits, of
their value, and of each other's effect. -/
section
namespace Sys2Proof.Proofs.Counter
open Sys2Proof Sys2Proof.Machine Sys2Proof.Proofs.EdgeDetector

/-! ### Writing both digits -/

theorem setDigits_setDigits (s : State) (i d i' d' : Digit) :
    (s.setDigits i d).setDigits i' d' = s.setDigits i' d' := rfl

theorem setDigits_self (s : State) : s.setDigits s.idig s.ddig = s := rfl

/-- `DISP` and the count of resets that selects its free bytes are not in the digits. -/
theorem sameDisplay_setDigits (s : State) (i d : Digit) : SameDisplay s (s.setDigits i d) := fun _ => rfl

theorem counterValue_setDigits (s : State) (i d : Digit) :
    counterValue (s.setDigits i d) = 10 * i.val + d.val := rfl

theorem digitDown_digitUp {d : Digit} (h : d.val < 9) : digitDown (digitUp d) = d := by
  apply Fin.ext
  rw [digitDown_val, digitUp_val, if_pos h, if_pos (Nat.succ_pos _), Nat.add_sub_cancel]

theorem digitUp_digitDown {d : Digit} (h : 0 < d.val) : digitUp (digitDown d) = d := by
  have hlt : d.val - 1 < 9 := by omega
  apply Fin.ext
  rw [digitUp_val, digitDown_val, if_pos h, if_pos hlt, Nat.sub_add_cancel h]

/-- At its boundary a digit stays where it is on the way out, and moves on the way back. -/
theorem digitDown_digitUp_of_nine {d : Digit} (h : d.val = 9) : digitDown (digitUp d) = 8 := by
  obtain rfl : d = 9 := Fin.ext h
  rfl

theorem digitUp_digitDown_of_zero {d : Digit} (h : d.val = 0) : digitUp (digitDown d) = 1 := by
  obtain rfl : d = 0 := Fin.ext h
  rfl

/-! ### The commands, one equation for each branch -/

theorem exec_incInt (s : State) : exec .incInt s = .next (s.setDigits (digitUp s.idig) s.ddig) := rfl

theorem exec_decInt (s : State) : exec .decInt s = .next (s.setDigits (digitDown s.idig) s.ddig) := rfl

section
variable {s : State}

theorem exec_incDec_of_lt (h : s.ddig.val < 9) :
    exec .incDec s = .next (s.setDigits s.idig (digitUp s.ddig)) := congrArg _ (if_pos h)

theorem exec_incDec_of_nine (h : s.ddig.val = 9) :
    exec .incDec s = .next (s.setDigits (digitUp s.idig) 0) := congrArg _ (if_neg (Nat.not_lt.2 h.ge))

theorem exec_decDec_of_pos (h : 0 < s.ddig.val) :
    exec .decDec s = .next (s.setDigits s.idig (digitDown s.ddig)) := congrArg _ (if_pos h)

theorem exec_decDec_of_zero (h : s.ddig.val = 0) :
    exec .decDec s = .next (s.setDigits (digitDown s.idig) 9) := congrArg _ (if_neg (Nat.not_lt.2 h.le))

end

/-- The two branches of INC_DEC are the digits below 9 and 9. -/
theorem lt_nine_or_eq_nine (d : Digit) : d.val < 9 ∨ d.val = 9 := Nat.lt_or_eq_of_le (Nat.le_of_lt_succ d.isLt)

/-! ### The results (R121 to R125) -/

/-- Settles O19: opcode 4 reads no operand bit, and INC_INT writes the next digit. -/
theorem incIntResult : Obligations.IncIntResult :=
  ⟨fun _ => decode_of_opcode, fun s =>
    ⟨_, exec_incInt s, digitUp_val s.idig, rfl, sameDisplay_setDigits s _ _⟩⟩

/-- Settles O20: opcode 5 reads no operand bit, and DEC_INT writes the previous digit. -/
theorem decIntResult : Obligations.DecIntResult :=
  ⟨fun _ => decode_of_opcode, fun s =>
    ⟨_, exec_decInt s, digitDown_val s.idig, rfl, sameDisplay_setDigits s _ _⟩⟩

/-- Settles O21: without a carry INC_DEC writes the next decimal digit, with one it is INC_INT and a 0. -/
theorem incDecResult : Obligations.IncDecResult := by
  refine ⟨fun _ => decode_of_opcode, fun s => ?_⟩
  obtain hlt | hnine := lt_nine_or_eq_nine s.ddig
  · have hup : (digitUp s.ddig).val = s.ddig.val + 1 := (digitUp_val _).trans (if_pos hlt)
    exact ⟨_, exec_incDec_of_lt hlt, fun _ => ⟨hup, rfl⟩, fun h => absurd h hlt.ne, rfl,
      sameDisplay_setDigits s _ _⟩
  · exact ⟨_, exec_incDec_of_nine hnine, fun h => absurd hnine h.ne, fun _ => ⟨rfl, digitUp_val s.idig⟩, rfl,
      sameDisplay_setDigits s _ _⟩

/-- Settles O22: without a borrow DEC_DEC writes the previous decimal digit, with one it is DEC_INT and a 9. -/
theorem decDecResult : Obligations.DecDecResult := by
  refine ⟨fun _ => decode_of_opcode, fun s => ?_⟩
  obtain hzero | hpos := Nat.eq_zero_or_pos s.ddig.val
  · exact ⟨_, exec_decDec_of_zero hzero, fun h => absurd hzero h.ne', fun _ => ⟨rfl, digitDown_val s.idig⟩, rfl,
      sameDisplay_setDigits s _ _⟩
  · have hdown : (digitDown s.ddig).val = s.ddig.val - 1 := (digitDown_val _).trans (if_pos hpos)
    exact ⟨_, exec_decDec_of_pos hpos, fun _ => ⟨hdown, rfl⟩, fun h => absurd h hpos.ne', rfl,
      sameDisplay_setDigits s _ _⟩

/-! ### The value (R127) -/

theorem counterValue_le (s : State) : counterValue s ≤ 99 := by
  have hi := s.idig.isLt
  have hd := s.ddig.isLt
  unfold counterValue
  omega

/-- INC_INT on the value. -/
theorem counterValue_idigUp (s : State) :
    counterValue (s.setDigits (digitUp s.idig) s.ddig) =
      if s.idig.val < 9 then counterValue s + 10 else counterValue s := by
  rw [counterValue_setDigits, digitUp_val, counterValue]
  split <;> omega

/-- DEC_INT on the value. -/
theorem counterValue_idigDown (s : State) :
    counterValue (s.setDigits (digitDown s.idig) s.ddig) =
      if s.idig.val > 0 then counterValue s - 10 else counterValue s := by
  rw [counterValue_setDigits, digitDown_val, counterValue]
  split <;> omega

/-- INC_DEC on the value: below 9 in the decimal digit V is below 99; at 9 the carry makes V + 1 unless V is 99. -/
theorem exec_incDec_counterValue (s : State) : ∃ t, exec .incDec s = .next t ∧
    counterValue t = if counterValue s < 99 then counterValue s + 1 else 90 := by
  have hi := s.idig.isLt
  obtain hlt | hnine := lt_nine_or_eq_nine s.ddig
  · refine ⟨_, exec_incDec_of_lt hlt, ?_⟩
    have hbelow : counterValue s < 99 := by unfold counterValue; omega
    rw [if_pos hbelow, counterValue_setDigits, digitUp_val, if_pos hlt]
    rfl
  · refine ⟨_, exec_incDec_of_nine hnine, ?_⟩
    rw [counterValue_setDigits, digitUp_val, counterValue, hnine, Fin.val_zero]
    split_ifs <;> omega

/-- DEC_DEC on the value: above 0 in the decimal digit V is above 0; at 0 the borrow makes V - 1 unless V is 0. -/
theorem exec_decDec_counterValue (s : State) : ∃ t, exec .decDec s = .next t ∧
    counterValue t = if counterValue s > 0 then counterValue s - 1 else 9 := by
  have hninth : ((9 : Digit) : Nat) = 9 := rfl
  obtain hzero | hpos := Nat.eq_zero_or_pos s.ddig.val
  · refine ⟨_, exec_decDec_of_zero hzero, ?_⟩
    rw [counterValue_setDigits, digitDown_val, counterValue, hzero, hninth]
    split_ifs <;> omega
  · refine ⟨_, exec_decDec_of_pos hpos, ?_⟩
    have habove : counterValue s > 0 := Nat.add_pos_right _ hpos
    rw [if_pos habove, counterValue_setDigits, digitDown_val, if_pos hpos]
    exact (Nat.add_sub_assoc hpos _).symm

/-- Settles O23: the four rows of the table. -/
theorem counterCommandsOnTheValue : Obligations.CounterCommandsOnTheValue := by
  intro s
  obtain ⟨c, hc, hcv⟩ := exec_incDec_counterValue s
  obtain ⟨d, hd, hdv⟩ := exec_decDec_counterValue s
  exact ⟨counterValue_le s, _, _, c, d, exec_incInt s, exec_decInt s, hc, hd, counterValue_idigUp s,
    counterValue_idigDown s, hcv, hdv⟩

/-! ### Round trips (R129) -/

theorem runInstrs_pair {i j : Instr} {s t u : State} (hi : exec i s = .next t) (hj : exec j t = .next u) :
    runInstrs [i, j] s = .next u := by
  simp only [runInstrs, hi, hj]

theorem runInstrs_incInt_decInt (s : State) :
    runInstrs [.incInt, .decInt] s = .next (s.setDigits (digitDown (digitUp s.idig)) s.ddig) := rfl

theorem runInstrs_decInt_incInt (s : State) :
    runInstrs [.decInt, .incInt] s = .next (s.setDigits (digitUp (digitDown s.idig)) s.ddig) := rfl

section
variable {s : State}

/-- Without a carry nothing is borrowed on the way back. -/
theorem runInstrs_incDec_decDec_of_lt (h : s.ddig.val < 9) : runInstrs [.incDec, .decDec] s = .next s := by
  have hpos : 0 < (s.setDigits s.idig (digitUp s.ddig)).ddig.val := by
    rw [State.setDigits_ddig, digitUp_val, if_pos h]
    exact Nat.succ_pos _
  rw [runInstrs_pair (exec_incDec_of_lt h) (exec_decDec_of_pos hpos), setDigits_setDigits, State.setDigits_idig,
    State.setDigits_ddig, digitDown_digitUp h, setDigits_self]

/-- With a carry the way back borrows, and the integer digit makes its own round trip. -/
theorem runInstrs_incDec_decDec_of_nine (h : s.ddig.val = 9) :
    runInstrs [.incDec, .decDec] s = .next (s.setDigits (digitDown (digitUp s.idig)) 9) :=
  runInstrs_pair (exec_incDec_of_nine h) (exec_decDec_of_zero rfl)

theorem runInstrs_decDec_incDec_of_pos (h : 0 < s.ddig.val) : runInstrs [.decDec, .incDec] s = .next s := by
  have hlt : (s.setDigits s.idig (digitDown s.ddig)).ddig.val < 9 := by
    rw [State.setDigits_ddig, digitDown_val, if_pos h]
    omega
  rw [runInstrs_pair (exec_decDec_of_pos h) (exec_incDec_of_lt hlt), setDigits_setDigits, State.setDigits_idig,
    State.setDigits_ddig, digitUp_digitDown h, setDigits_self]

theorem runInstrs_decDec_incDec_of_zero (h : s.ddig.val = 0) :
    runInstrs [.decDec, .incDec] s = .next (s.setDigits (digitUp (digitDown s.idig)) 0) :=
  runInstrs_pair (exec_decDec_of_zero h) (exec_incDec_of_nine rfl)

/-- Away from (9, 9) either there is no carry, or the integer digit takes it. -/
theorem runInstrs_incDec_decDec (h : ¬(s.idig.val = 9 ∧ s.ddig.val = 9)) :
    runInstrs [.incDec, .decDec] s = .next s := by
  obtain hlt | hnine := lt_nine_or_eq_nine s.ddig
  · exact runInstrs_incDec_decDec_of_lt hlt
  · have hidig : s.idig.val < 9 := (lt_nine_or_eq_nine s.idig).resolve_right fun hi => h ⟨hi, hnine⟩
    have hddig : s.ddig = 9 := Fin.ext hnine
    rw [runInstrs_incDec_decDec_of_nine hnine, digitDown_digitUp hidig, ← hddig, setDigits_self]

/-- Away from (0, 0) either there is no borrow, or the integer digit gives it. -/
theorem runInstrs_decDec_incDec (h : ¬(s.idig.val = 0 ∧ s.ddig.val = 0)) :
    runInstrs [.decDec, .incDec] s = .next s := by
  obtain hzero | hpos := Nat.eq_zero_or_pos s.ddig.val
  · have hidig : 0 < s.idig.val := Nat.pos_of_ne_zero fun hi => h ⟨hi, hzero⟩
    have hddig : s.ddig = 0 := Fin.ext hzero
    rw [runInstrs_decDec_incDec_of_zero hzero, digitUp_digitDown hidig, ← hddig, setDigits_self]
  · exact runInstrs_decDec_incDec_of_pos hpos

end

/-- Settles O24: the round trips of the integer digit, directly and behind a carry or a borrow; at a boundary the way
out does nothing to the integer digit and the way back moves it. -/
theorem counterRoundTrip : Obligations.CounterRoundTrip := by
  intro s
  refine ⟨runInstrs_incDec_decDec, runInstrs_decDec_incDec, fun h => ?_, fun h => ?_, fun h => ?_, fun h => ?_,
    fun ⟨hi, hd⟩ => ?_, fun ⟨hi, hd⟩ => ?_⟩
  · rw [runInstrs_incInt_decInt, digitDown_digitUp h, setDigits_self]
  · rw [runInstrs_decInt_incInt, digitUp_digitDown h, setDigits_self]
  · rw [runInstrs_incInt_decInt, digitDown_digitUp_of_nine h]; rfl
  · rw [runInstrs_decInt_incInt, digitUp_digitDown_of_zero h]; rfl
  · rw [runInstrs_incDec_decDec_of_nine hd, digitDown_digitUp_of_nine hi]; rfl
  · rw [runInstrs_decDec_incDec_of_zero hd, digitUp_digitDown_of_zero hi]; rfl

end Sys2Proof.Proofs.Counter
end

/-! The host's pre-checks (spec/43_bcd_counter.md R126, 70_reset_and_hazards.md R250). Only a Dispatcher step puts a
counter command among the pending operations, in front and checked; what comes before it runs leaves the digits. -/
section
namespace Sys2Proof.Proofs.CounterGuard
open Sys2Proof Sys2Proof.Machine Sys2Proof.Proofs.CommandWrites Sys2Proof.Proofs.ArrivalOrder

/-! ### Pending counter commands -/

/-- No operation of the list issues a counter command. -/
def noCounter (ops : List HostOp) : Bool := ops.all (fun op => !issuesCounter op)

theorem noCounter_cons (op : HostOp) (ops : List HostOp) :
    noCounter (op :: ops) = (!issuesCounter op && noCounter ops) := rfl

theorem noCounter_append {l m : List HostOp} (hl : noCounter l = true) (hm : noCounter m = true) :
    noCounter (l ++ m) = true := by
  unfold noCounter at *
  rw [List.all_append, hl, hm, Bool.and_self]

theorem preChecked_of_not_issuesCounter (s : State) {op : HostOp} (h : issuesCounter op = false) :
    preChecked s op = true := by
  unfold preChecked
  split
  case h_5 => rfl
  all_goals exact absurd h (by decide)

/-- The pre-check reads the digits only. -/
theorem preChecked_congr {s t : State} (hi : t.idig = s.idig) (hd : t.ddig = s.ddig) (op : HostOp) :
    preChecked t op = preChecked s op := by
  unfold preChecked
  rw [hi, hd]

/-! ### `hostGuarded` by what is pending -/

section
variable {s t : State}

theorem hostGuarded_of_nil (h : s.host.todo = []) : hostGuarded s = onlyHostActs s.input := by
  simp only [hostGuarded, h, Bool.and_true]

theorem hostGuarded_of_cons {op : HostOp} {rest : List HostOp} (h : s.host.todo = op :: rest) :
    hostGuarded s = (onlyHostActs s.input && (preChecked s op && noCounter rest)) := by
  simp only [hostGuarded, h, noCounter]

theorem onlyHostActs_of_hostGuarded (h : hostGuarded s = true) : onlyHostActs s.input = true :=
  (Bool.and_eq_true_iff.1 h).1

/-- A guarded state stays so under writes to neither the digits nor the pending operations. -/
theorem hostGuarded_of_frame (hs : hostGuarded s = true) (hinput : onlyHostActs t.input = true)
    (htodo : t.host.todo = s.host.todo) (hi : t.idig = s.idig) (hd : t.ddig = s.ddig) : hostGuarded t = true := by
  cases h : s.host.todo with
  | nil => rw [hostGuarded_of_nil (htodo.trans h), hinput]
  | cons op rest =>
    rw [hostGuarded_of_cons h, Bool.and_eq_true] at hs
    rw [hostGuarded_of_cons (htodo.trans h), hinput, preChecked_congr hi hd, Bool.true_and, hs.2]

end

/-- The host drives the block alone and has no counter command pending: guarded whatever the digits are. -/
structure Calm (s : State) : Prop where
  onlyHost : onlyHostActs s.input = true
  noneDue : noCounter s.host.todo = true

section
variable {s : State}

/-- A checked operation may be put in front of a list without counter commands. -/
theorem hostGuarded_plan (hs : Calm s) {op : HostOp} {ops : List HostOp} (hop : preChecked s op = true)
    (hops : noCounter ops = true) : hostGuarded (plan (op :: ops) s) = true := by
  have htodo : (plan (op :: ops) s).host.todo = op :: (ops ++ s.host.todo) := rfl
  have hpre : preChecked (plan (op :: ops) s) op = true := (preChecked_congr rfl rfl op).trans hop
  rw [hostGuarded_of_cons htodo, hpre, noCounter_append hops hs.noneDue, Bool.true_and, Bool.and_true]
  exact hs.onlyHost

theorem Calm.guarded (hs : Calm s) : hostGuarded s = true := by
  cases h : s.host.todo with
  | nil => rw [hostGuarded_of_nil h, hs.onlyHost]
  | cons op rest =>
    have hnone := hs.noneDue
    rw [h, noCounter_cons, Bool.and_eq_true, Bool.not_eq_true'] at hnone
    rw [hostGuarded_of_cons h, hs.onlyHost, preChecked_of_not_issuesCounter s hnone.1, hnone.2]
    rfl

theorem Calm.setHost (hs : Calm s) {h : HostState} (ht : h.todo = s.host.todo) : Calm (s.setHost h) :=
  ⟨hs.onlyHost, ht ▸ hs.noneDue⟩

theorem Calm.plan (hs : Calm s) {ops : List HostOp} (hops : noCounter ops = true) : Calm (plan ops s) :=
  ⟨hs.onlyHost, noCounter_append hops hs.noneDue⟩

/-- No command writes the input or the host's state. -/
theorem Calm.exec {i : Instr} {t : State} (hs : Calm s) (h : exec i s = .next t) : Calm t := by
  obtain ⟨-, hhost, -, hinput⟩ := (writes_of_exec h).outside_eq
  exact ⟨hinput ▸ hs.onlyHost, hhost ▸ hs.noneDue⟩

end

theorem calm_reset (resets : Nat) {input : List Instant} (h : onlyHostActs input = true) :
    Calm { State.reset with resets := resets, input := input } := ⟨h, rfl⟩

/-- Settles O57: the boot sequence issues no counter command. -/
theorem resetIsGuarded : Obligations.ResetIsGuarded := fun _ hinput => (calm_reset 0 hinput).guarded

/-! ### The host's operations -/

section
variable {s : State}

theorem issuesCounter_preset (p : Preset) : issuesCounter (.issue (presetInstr p)) = false := by
  cases p <;> rfl

theorem Calm.overlayStart (hs : Calm s) : Calm (overlayStart s) := by
  unfold Machine.overlayStart
  split
  · refine (hs.setHost ?_).plan ?_ <;> rfl
  · exact hs
  · exact hs

theorem Calm.overlayPoll (hs : Calm s) : Calm (overlayPoll s) := by
  unfold Machine.overlayPoll
  split
  · exact hs
  · exact hs.plan rfl
  · exact hs.plan rfl

theorem Calm.overlayOnCheck (hs : Calm s) : Calm (overlayOnCheck s) := by
  unfold Machine.overlayOnCheck
  split
  · split
    · exact hs.setHost rfl
    · exact hs
  · exact hs
  · exact hs

theorem Calm.overlayOffCheck (hs : Calm s) : Calm (overlayOffCheck s) := by
  unfold Machine.overlayOffCheck
  split
  case h_1 =>
    split_ifs with hdue hlast
    · refine (hs.setHost ?_).plan ?_ <;> rfl
    · refine (hs.setHost ?_).plan ?_ <;> rfl
    · exact hs
  case h_2 => exact hs
  case h_3 => exact hs

theorem Calm.goto (hs : Calm s) (d : DState) : Calm (goto d s) := hs.setHost rfl

/-! ### The Dispatcher's checks (46_dispatcher_host.md R183 to R186) -/

/-- The counter command is planned in front of its tone, and only if the check passed. -/
theorem hostGuarded_operateOrFlash (hs : Calm s) {allowed : Bool} {op : Instr} (tone : Preset)
    (hop : allowed = true → preChecked s (.issue op) = true) :
    hostGuarded (operateOrFlash allowed op tone s) = true := by
  unfold operateOrFlash
  split
  · refine hostGuarded_plan hs (hop ‹_›) ?_
    rw [noCounter_cons, issuesCounter_preset]
    rfl
  · exact (hs.plan rfl).guarded

theorem digitCode_lt_nine_iff (d : Digit) : digitCode d < 9#4 ↔ d.val < 9 := by
  rw [BitVec.lt_def, digitCode_toNat]
  rfl

theorem zero_lt_digitCode_iff (d : Digit) : 0#4 < digitCode d ↔ 0 < d.val := by
  rw [BitVec.lt_def, digitCode_toNat]
  rfl

theorem digitCode_beq {n : Nat} (hn : n < 16) (d : Digit) : (digitCode d == BitVec.ofNat 4 n) = decide (d.val = n) := by
  have hiff : digitCode d = BitVec.ofNat 4 n ↔ d.val = n := by
    rw [← BitVec.toNat_inj, digitCode_toNat, BitVec.toNat_ofNat, Nat.mod_eq_of_lt hn]
  rw [beq_eq_decide, decide_eq_decide.2 hiff]

/-- Each check of the ports is the pre-check of the command it allows. -/
theorem hostGuarded_dispatchStep (hs : Calm s) : hostGuarded (dispatchStep s) = true := by
  unfold dispatchStep
  split
  case h_1 => split <;> exact (hs.goto _).guarded
  case h_2 =>
    refine hostGuarded_operateOrFlash hs _ fun h => ?_
    exact decide_eq_true ((digitCode_lt_nine_iff s.idig).1 (of_decide_eq_true h))
  case h_3 =>
    refine hostGuarded_operateOrFlash hs _ fun h => ?_
    exact decide_eq_true ((zero_lt_digitCode_iff s.idig).1 (of_decide_eq_true h))
  case h_4 =>
    refine hostGuarded_operateOrFlash hs _ fun h => ?_
    rwa [idigO, ddigO, digitCode_beq (by decide), digitCode_beq (by decide)] at h
  case h_5 =>
    refine hostGuarded_operateOrFlash hs _ fun h => ?_
    rwa [idigO, ddigO, digitCode_beq (by decide), digitCode_beq (by decide)] at h
  case h_6 => split <;> exact (hs.goto _).guarded
  case h_7 => exact (hs.plan rfl).guarded

end

/-! ### What is presented next -/

/-- Whatever the step makes of what is presented is guarded. -/
def LeadsToGuarded : Fetched → Prop
  | .command w s => ∀ t, exec (decode w) s = .next t → hostGuarded t = true
  | .quiet s => hostGuarded s = true

section
variable {s : State}

/-- An operation on a list without counter commands. If it is itself a counter command, none is pending after it. -/
theorem leadsToGuarded_hostOp (op : HostOp) (hs : Calm s) : LeadsToGuarded (hostOp op s) := by
  cases op with
  | setOwnState => exact (hs.setHost rfl).guarded
  | issue i => exact fun _ h => (hs.exec h).guarded
  | enableTicks => exact Calm.guarded ⟨hs.onlyHost, hs.noneDue⟩
  | overlayStart => exact hs.overlayStart.guarded
  | overlayPoll => exact hs.overlayPoll.guarded
  | overlayOnCheck => exact hs.overlayOnCheck.guarded
  | overlayOffCheck => exact hs.overlayOffCheck.guarded
  | endFlash => exact (hs.setHost rfl).guarded
  | dispatch => exact hostGuarded_dispatchStep hs
  | goto d => exact (hs.goto d).guarded

/-- Behind the next operation no counter command is pending, in a new iteration of the main loop as well. -/
theorem noCounter_of_pendingOps {op : HostOp} {rest : List HostOp} (hs : hostGuarded s = true)
    (h : pendingOps s = op :: rest) : noCounter rest = true := by
  unfold pendingOps at h
  split at h
  case h_1 =>
    injection h with _ hrest
    exact hrest ▸ rfl
  case h_2 htodo =>
    rw [hostGuarded_of_cons htodo, Bool.and_eq_true, Bool.and_eq_true] at hs
    obtain ⟨-, -, hnone⟩ := hs
    injection h with _ hrest
    exact hrest ▸ hnone

theorem leadsToGuarded_hostTurn (hs : hostGuarded s = true) : LeadsToGuarded (hostTurn s) := by
  unfold hostTurn
  split
  case h_1 => exact hs
  case h_2 op rest hops =>
    have hcalm : Calm (s.setHost { s.host with todo := rest }) :=
      ⟨onlyHostActs_of_hostGuarded (s := s) hs, noCounter_of_pendingOps hs hops⟩
    exact leadsToGuarded_hostOp op hcalm

/-- A TICK may stand before a checked counter command: it leaves the digits. -/
theorem leadsToGuarded_deliverTick (raw : Nibble) (hs : hostGuarded s = true) :
    LeadsToGuarded (deliverTick raw s) := by
  intro t h
  rw [decode_encode_tick] at h
  have hw := writes_of_exec h
  obtain ⟨hi, hd⟩ := hw.digits_eq nofun nofun nofun nofun
  obtain ⟨-, hhost, -, hinput⟩ := hw.outside_eq
  exact hostGuarded_of_frame hs (hinput ▸ onlyHostActs_of_hostGuarded hs) (congrArg _ hhost) hi hd

theorem hostGuarded_setTicks (hs : hostGuarded s = true) (t : TickSource) : hostGuarded (s.setTicks t) = true :=
  hostGuarded_of_frame hs (onlyHostActs_of_hostGuarded hs) rfl rfl rfl

theorem hostGuarded_setInput (hs : hostGuarded s = true) {l : List Instant} (hl : onlyHostActs l = true) :
    hostGuarded (s.setInput l) = true :=
  hostGuarded_of_frame hs hl rfl rfl rfl

theorem leadsToGuarded_fireTick (raw : Nibble) (hs : hostGuarded s = true) : LeadsToGuarded (fireTick raw s) := by
  unfold fireTick
  split
  · exact leadsToGuarded_deliverTick raw hs
  · exact hostGuarded_setTicks hs _

theorem leadsToGuarded_mainAct {a : MainAct} (ha : ∀ w, a ≠ .command w) (hs : hostGuarded s = true) :
    LeadsToGuarded (mainAct a s) := by
  cases a with
  | command w => exact absurd rfl (ha w)
  | host => exact leadsToGuarded_hostTurn hs
  | suppressTicks => exact hostGuarded_setTicks hs _
  | resumeTicks => exact hostGuarded_setTicks hs _

/-! ### The input -/

theorem onlyHostActs_tail {x : Instant} {rest : List Instant} (h : onlyHostActs (x :: rest) = true) :
    onlyHostActs rest = true := by
  rw [onlyHostActs, List.all_cons, Bool.and_eq_true] at h
  exact h.2

theorem ne_command_of_onlyHostActs {fire : Option Nibble} {a : MainAct} {rest : List Instant}
    (h : onlyHostActs (.present fire (some a) :: rest) = true) (w : CmdWord) : a ≠ .command w := by
  rintro rfl
  exact nomatch h

/-- Whether a firing stands beside it makes no difference to whose act it is. -/
theorem onlyHostActs_present (fire : Option Nibble) (act : MainAct) (rest : List Instant) :
    onlyHostActs (.present fire (some act) :: rest) = onlyHostActs (.present none (some act) :: rest) := by
  cases act <;> rfl

/-- The act a firing leaves for the next step is the one it came with. -/
theorem onlyHostActs_afterFiring {fire : Option Nibble} {a : Option MainAct} {rest : List Instant}
    (h : onlyHostActs (.present fire a :: rest) = true) : onlyHostActs (afterFiring a rest) = true := by
  cases a with
  | none => exact onlyHostActs_tail h
  | some act => exact onlyHostActs_present fire act rest ▸ h

theorem leadsToGuarded_fetch (hs : hostGuarded s = true) : LeadsToGuarded (fetch s) := by
  have hinput := onlyHostActs_of_hostGuarded hs
  obtain ⟨raw, more, -, -, hf⟩ | ⟨-, hf⟩ | ⟨rest, hnext, hf⟩ | ⟨rest, hnext, hf⟩ | ⟨a, rest, hnext, hf⟩ |
      ⟨raw, a, rest, hnext, hf⟩ := fetch_cases (rfl : fetch s = fetch s) <;> rw [hf]
  case inl => exact leadsToGuarded_deliverTick raw (hostGuarded_setTicks hs _)
  case inr.inl => exact hs
  all_goals rw [hnext] at hinput
  · exact (calm_reset _ (onlyHostActs_tail hinput)).guarded
  · exact hostGuarded_setInput hs (onlyHostActs_tail hinput)
  · exact leadsToGuarded_mainAct (ne_command_of_onlyHostActs hinput)
      (hostGuarded_setInput hs (onlyHostActs_tail hinput))
  · exact leadsToGuarded_fireTick raw (hostGuarded_setInput hs (onlyHostActs_afterFiring hinput))

end

/-- Settles O56: the step runs what is presented, and that leads to a guarded state. -/
theorem hostPreChecksEveryCounterCommand : Obligations.HostPreChecksEveryCounterCommand := by
  intro s t hs h
  have hnext := leadsToGuarded_fetch hs
  obtain ⟨w, s', hf, hexec⟩ | hf := step_cases h
  · rw [hf] at hnext
    exact hnext t hexec
  · rw [hf] at hnext
    exact hnext

end Sys2Proof.Proofs.CounterGuard
end

/-! The tone timer (spec/44_tone_timer.md R141 to R145): one equation for each of its two commands, and a tone that is
polled after every TICK. -/
section
namespace Sys2Proof.Proofs.ToneTimer
open Sys2Proof Sys2Proof.Machine Sys2Proof.Proofs.Deadline Sys2Proof.Proofs.CommandWrites Sys2Proof.Proofs.CommandWord
  Sys2Proof.Proofs.TickNop Sys2Proof.Proofs.EdgeDetector Sys2Proof.Proofs.StateInterface

/-! ### The output port (R140, R150) -/

theorem toneOutput_of_active {s : State} (h : s.tAct = true) : toneOutput s = some s.tPer :=
  if_pos ((toneOnO_eq_one_iff s).2 h)

theorem toneOutput_of_inactive {s : State} (h : s.tAct = false) : toneOutput s = none :=
  if_neg (mt (toneOnO_eq_one_iff s).1 (ne_true_of_eq_false h))

/-! ### TONE_PLAY (R141) -/

theorem exec_tonePlay (period : Period) (dur : Duration) (s : State) :
    exec (.tonePlay period dur) s = .next (s.setTone true (s.now + durationMs dur) period) := rfl

/-- `DISP` and the count of resets that selects its free bytes are not in the tone slot. -/
theorem sameDisplay_setTone (s : State) (active : Bool) (stop : Ms) (period : Period) :
    SameDisplay s (s.setTone active stop period) := fun _ => rfl

/-- The deadline is a sum modulo 2^32 of the zero-extended duration. -/
theorem add_durationMs_toNat (now : Ms) (dur : Duration) :
    (now + durationMs dur).toNat = (now.toNat + dur.toNat) % 2 ^ 32 := by
  rw [BitVec.toNat_add, durationMs_toNat]

/-- Settles O26: the command is one write of the whole slot, which the output follows. -/
theorem tonePlayResult : Obligations.TonePlayResult :=
  ⟨fun _ => decode_of_opcode_tonePlay, fun period dur s =>
    ⟨_, exec_tonePlay period dur s, rfl, rfl, add_durationMs_toNat s.now dur, (toneOnO_eq_one_iff _).2 rfl,
      toneOutput_of_active rfl, rfl, sameDisplay_setTone s _ _ _⟩⟩

/-! ### TONE_POLL (R143) -/

/-- The state a TONE_POLL ends in: a playing tone stays on while its deadline is not reached. -/
def afterPoll (s : State) : State := s.setToneActive (s.tAct && !reached s.now s.tEnd)

@[simp] theorem afterPoll_now (s : State) : (afterPoll s).now = s.now := rfl

@[simp] theorem afterPoll_tEnd (s : State) : (afterPoll s).tEnd = s.tEnd := rfl

theorem afterPoll_tAct_iff (s : State) :
    (afterPoll s).tAct = true ↔ s.tAct = true ∧ reached s.now s.tEnd = false := by
  rw [afterPoll, State.setToneActive_tAct, Bool.and_eq_true, Bool.not_eq_true']

theorem afterPoll_of_due {s : State} (h : reached s.now s.tEnd = true) : afterPoll s = s.setToneActive false := by
  rw [afterPoll, h, Bool.not_true, Bool.and_false]

/-- Where the tone is off the poll finds it off, and where it is not due the poll finds it as it leaves it. -/
theorem afterPoll_of_not_due {s : State} (h : ¬(s.tAct = true ∧ reached s.now s.tEnd = true)) : afterPoll s = s := by
  have hact : (s.tAct && !reached s.now s.tEnd) = s.tAct := by
    cases hs : s.tAct with
    | false => rfl
    | true => rw [Bool.eq_false_of_not_eq_true fun hr => h ⟨hs, hr⟩, Bool.not_false, Bool.and_true]
  rw [afterPoll, hact]
  rfl

theorem exec_tonePoll (s : State) : exec .tonePoll s = .next (afterPoll s) := by
  rw [exec_next_iff, resultOf]
  split
  case isTrue h => rw [afterPoll_of_due (Bool.and_eq_true_iff.1 h).2]
  case isFalse h => rw [afterPoll_of_not_due (mt Bool.and_eq_true_iff.2 h)]

theorem sameDisplay_afterPoll (s : State) : SameDisplay s (afterPoll s) := fun _ => rfl

/-- Settles O27: opcode 0xD reads no operand bit, and the two branches are those of the poll. -/
theorem tonePollResult : Obligations.TonePollResult := by
  refine ⟨fun _ => decode_of_opcode, fun s => ⟨_, exec_tonePoll s, ?_, ?_, sameDisplay_afterPoll s⟩⟩
  · rintro ⟨-, hdue⟩
    rw [afterPoll_of_due ((reached_iff _ _).2 hdue)]
    exact ⟨rfl, toneOutput_of_inactive rfl⟩
  · rw [← reached_iff]
    exact afterPoll_of_not_due

/-! ### What stops a tone (R144) -/

/-- Settles O28: of the two commands that write `t_act`, TONE_PLAY sets it, and TONE_POLL keeps it on before the
deadline. -/
theorem onlyTonePollStopsATone : Obligations.OnlyTonePollStopsATone := by
  intro i s t h hon hoff
  cases writes_of_exec h with
  | tonePlay period dur => exact nomatch hoff
  | tonePoll on =>
    refine ⟨rfl, Bool.eq_true_of_not_eq_false fun hearly => ?_⟩
    rw [exec_tonePoll] at h
    injection h with h
    have hkept : (afterPoll s).tAct = true := (afterPoll_tAct_iff s).2 ⟨hon, hearly⟩
    exact absurd hkept (h ▸ ne_true_of_eq_false hoff)
  | _ => exact absurd hon (ne_true_of_eq_false hoff)

/-! ### A tone polled after every TICK (R145) -/

/-- The state after one TICK and one TONE_POLL for each sample of the list, the head first. -/
def afterRounds (rs : List Nibble) (s : State) : State := rs.foldl (fun u raw => afterPoll (afterTick raw u)) s

theorem afterRounds_concat (rs : List Nibble) (raw : Nibble) (s : State) :
    afterRounds (rs ++ [raw]) s = afterPoll (afterTick raw (afterRounds rs s)) := List.foldl_concat ..

/-- The rounds complete from every state. -/
theorem runInstrs_rounds (rs : List Nibble) (s : State) :
    runInstrs (rs.flatMap fun r => [Instr.tick r, Instr.tonePoll]) s = .next (afterRounds rs s) := by
  induction rs generalizing s with
  | nil => rfl
  | cons raw rs ih =>
    simp only [List.flatMap_cons, List.cons_append, List.nil_append, runInstrs, exec_tick, exec_tonePoll]
    exact ih (afterPoll (afterTick raw s))

theorem afterRounds_now (rs : List Nibble) (s : State) :
    (afterRounds rs s).now = s.now + BitVec.ofNat 32 (10 * rs.length) := by
  induction rs using List.reverseRecOn with
  | nil => exact (BitVec.add_zero s.now).symm
  | append_singleton rs raw ih =>
    rw [afterRounds_concat, afterPoll_now, afterTick_now, ih, List.length_append, List.length_singleton, Nat.mul_succ,
      BitVec.ofNat_add, BitVec.add_assoc]

/-- Neither command writes the deadline. -/
theorem afterRounds_tEnd (rs : List Nibble) (s : State) : (afterRounds rs s).tEnd = s.tEnd := by
  induction rs using List.reverseRecOn with
  | nil => rfl
  | append_singleton rs raw ih => rw [afterRounds_concat, afterPoll_tEnd]; exact ih

/-- R142: up to half the range of `now`, the deadline is not reached exactly while less than the duration went by. -/
theorem reached_durationMs_eq_false_iff (n0 : Ms) (dur : Duration) {elapsed : Nat} (h : elapsed < 2 ^ 31) :
    reached (n0 + BitVec.ofNat 32 elapsed) (n0 + durationMs dur) = false ↔ elapsed < dur.toNat := by
  have hdur : (durationMs dur).toNat < 2 ^ 31 := by
    rw [durationMs_toNat]
    exact dur.isLt.trans (by decide)
  have helapsed : (BitVec.ofNat 32 elapsed).toNat = elapsed := Nat.mod_eq_of_lt (h.trans (by decide))
  rw [← Bool.not_eq_true, reached_iff_delta_le_elapsed n0 hdur (helapsed.symm ▸ h), helapsed, durationMs_toNat,
    Nat.not_le]

/-- The tone is on before the first round, and after a round exactly if it was on before and is not yet due; with the
time going up, the last of these tests decides. -/
theorem afterRounds_tAct_iff {rs : List Nibble} {s : State} {dur : Duration} (hon : s.tAct = true)
    (hend : s.tEnd = s.now + durationMs dur) (hlen : 10 * rs.length < 2 ^ 31) :
    (afterRounds rs s).tAct = true ↔ rs = [] ∨ 10 * rs.length < dur.toNat := by
  induction rs using List.reverseRecOn with
  | nil => exact iff_of_true hon (.inl rfl)
  | append_singleton rs raw ih =>
    have hlast : (afterRounds (rs ++ [raw]) s).tAct = true ↔
        (afterRounds rs s).tAct = true ∧ 10 * (rs ++ [raw]).length < dur.toNat := by
      rw [← reached_durationMs_eq_false_iff s.now dur hlen, ← hend, ← afterRounds_now, ← afterRounds_tEnd (rs ++ [raw]),
        afterRounds_concat]
      exact afterPoll_tAct_iff _
    rw [List.length_append, List.length_singleton] at hlast hlen ⊢
    have hshorter : 10 * rs.length < 10 * (rs.length + 1) := by omega
    rw [hlast, ih (hshorter.trans hlen), or_iff_right (List.concat_ne_nil raw rs)]
    exact and_iff_right_of_imp fun h => .inr (hshorter.trans h)

/-- Settles O30: the TONE_PLAY sets the deadline that the rounds then test. -/
theorem toneLastsItsDurationInTicks : Obligations.ToneLastsItsDurationInTicks := by
  intro period dur rs s hne hlen
  refine ⟨afterRounds rs (s.setTone true (s.now + durationMs dur) period), runInstrs_rounds rs _, ?_⟩
  rw [afterRounds_tAct_iff rfl rfl hlen, or_iff_right hne]

end Sys2Proof.Proofs.ToneTimer
end

/-! The error-flash overlay of the reference host (spec/45_error_flash_overlay_host.md R162 to R166): one equation for
each branch of its operations, and the moves of a flash that a step of any kind can make. -/
section
namespace Sys2Proof.Proofs.ErrorFlash
open Sys2Proof Sys2Proof.Machine Sys2Proof.Proofs.ArrivalOrder Sys2Proof.Proofs.CommandWrites
open Sys2Proof.Proofs.Invariant (stateOf)

section
variable {s t : State}

/-! ### One turn of the host -/

theorem hostTurn_of_nil (h : s.host.todo = []) :
    hostTurn s = hostOp (.issue .tonePoll) (s.setHost { s.host with todo := [.overlayPoll, .dispatch] }) := by
  simp only [hostTurn, pendingOps, h, mainLoop]

theorem hostTurn_of_cons {op : HostOp} {more : List HostOp} (h : s.host.todo = op :: more) :
    hostTurn s = hostOp op (s.setHost { s.host with todo := more }) := by
  simp only [hostTurn, pendingOps, h]

/-- The state a pending operation runs on: its instant and the operation itself are taken. -/
def takeOp (rest : List Instant) (more : List HostOp) (s : State) : State :=
  { s with input := rest, host := { s.host with todo := more } }

/-- A turn whose operation presents no command is a step to the state the operation leaves. -/
theorem step_of_quiet_op {op : HostOp} {more : List HostOp} {rest : List Instant} (hdue : noTickDue s = true)
    (hinput : s.input = hostInstant :: rest) (htodo : s.host.todo = op :: more)
    (hop : hostOp op (takeOp rest more s) = .quiet t) : step s = .next t := by
  have hturn : hostTurn (s.setInput rest) = hostOp op (takeOp rest more s) := hostTurn_of_cons htodo
  exact step_of_fetch_quiet ((fetch_of_act hdue hinput).trans (hturn.trans hop))

/-! ### `overlay.start()` (R162) -/

theorem overlayStart_of_none (h : s.host.phase = .none) :
    overlayStart s = plan [.issue (presetInstr .err), .issue .dispOverlay]
      (s.setHost { s.host with phase := .on, deadline := s.now + 100#32, cycles := 0 }) := by
  rw [overlayStart, h]
  rfl

theorem overlayStart_of_active (h : s.host.phase ≠ .none) : overlayStart s = s := by
  unfold overlayStart
  split
  case h_1 hnone => exact absurd hnone h
  case h_2 => rfl
  case h_3 => rfl

/-- Settles O51: the two branches of `overlay.start()`, each on the state the turn has taken the operation from. -/
theorem overlayStartResult : Obligations.OverlayStartResult := by
  refine fun s more rest hdue hinput htodo => ⟨fun hnone => ?_, fun hactive => ?_⟩
  · exact step_of_quiet_op hdue hinput htodo (congrArg Fetched.quiet (overlayStart_of_none hnone))
  · exact step_of_quiet_op hdue hinput htodo (congrArg Fetched.quiet (overlayStart_of_active hactive))

/-! ### The overlay poll (R163) -/

theorem overlayPoll_of_none (h : s.host.phase = .none) : overlayPoll s = s := by
  rw [overlayPoll, h]

theorem overlayPoll_of_on (h : s.host.phase = .on) :
    overlayPoll s = plan [.issue .dispOverlay, .overlayOnCheck] s := by
  rw [overlayPoll, h]

theorem overlayPoll_of_off (h : s.host.phase = .off) :
    overlayPoll s = plan [.issue .dispBlank, .overlayOffCheck] s := by
  rw [overlayPoll, h]

/-! ### The deadline test in ON (R164) -/

theorem overlayOnCheck_of_on (h : s.host.phase = .on) :
    overlayOnCheck s =
      if reached s.now s.host.deadline then
        s.setHost { s.host with phase := .off, deadline := s.now + 100#32 }
      else s := by
  rw [overlayOnCheck, h]
  rfl

theorem overlayOnCheck_of_not_on (h : s.host.phase ≠ .on) : overlayOnCheck s = s := by
  unfold overlayOnCheck
  split
  case h_1 hon => exact absurd hon h
  case h_2 => rfl
  case h_3 => rfl

/-! ### The deadline test in OFF (R165) -/

theorem countCycle_val_of_lt_two {c : Fin 4} (h : c.val < 2) : (countCycle c).val = c.val + 1 := by
  rw [countCycle_val, if_pos (by omega)]

/-- The count stops at 3. -/
theorem countCycle_of_two_le {c : Fin 4} (h : 2 ≤ c.val) : countCycle c = 3 := by
  have hval : (countCycle c).val = 3 := by
    rw [countCycle_val]
    split <;> omega
  exact Fin.ext hval

theorem overlayOffCheck_of_not_due (h : reached s.now s.host.deadline = false) : overlayOffCheck s = s := by
  unfold overlayOffCheck
  split
  case h_1 => exact if_neg (ne_true_of_eq_false h)
  case h_2 => rfl
  case h_3 => rfl

theorem overlayOffCheck_of_not_off (h : s.host.phase ≠ .off) : overlayOffCheck s = s := by
  unfold overlayOffCheck
  split
  case h_1 hoff => exact absurd hoff h
  case h_2 => rfl
  case h_3 => rfl

theorem overlayOffCheck_of_lt_two (hoff : s.host.phase = .off) (hdue : reached s.now s.host.deadline = true)
    (hcycles : s.host.cycles.val < 2) :
    overlayOffCheck s = plan [.issue (presetInstr .err)] (s.setHost { s.host with
      cycles := countCycle s.host.cycles, phase := .on, deadline := s.now + 100#32 }) := by
  have hbelow : ¬ Config.flashCycles ≤ (countCycle s.host.cycles).val := by
    rw [countCycle_val_of_lt_two hcycles, Config.flashCycles]
    omega
  rw [overlayOffCheck, hoff]
  exact (if_pos hdue).trans (if_neg hbelow)

theorem overlayOffCheck_of_two_le (hoff : s.host.phase = .off) (hdue : reached s.now s.host.deadline = true)
    (hcycles : 2 ≤ s.host.cycles.val) :
    overlayOffCheck s = plan [.issue .render, .endFlash] (s.setHost { s.host with cycles := 3 }) := by
  have hlast : Config.flashCycles ≤ (countCycle s.host.cycles).val := by
    rw [countCycle_of_two_le hcycles]
    exact Nat.le_refl 3
  rw [← countCycle_of_two_le hcycles, overlayOffCheck, hoff]
  exact (if_pos hdue).trans (if_pos hlast)

/-- Settles O52: the poll by its phase, then each deadline test by its outcome, then the end of a flash. -/
theorem overlayPollResult : Obligations.OverlayPollResult := by
  intro s more rest hdue hinput
  have hquiet {op : HostOp} {t : State} (htodo : s.host.todo = op :: more) :
      hostOp op (takeOp rest more s) = .quiet t → step s = .next t := step_of_quiet_op hdue hinput htodo
  refine ⟨fun htodo => hquiet htodo ?poll, fun htodo hon => hquiet htodo ?onCheck,
    fun htodo _ hwait => hquiet htodo ?wait, fun htodo hoff hreached hcycles => ?again,
    fun htodo hoff hreached hcycles => hquiet htodo ?last, fun htodo => hquiet htodo rfl⟩
  case poll =>
    cases hphase : s.host.phase with
    | none => exact congrArg Fetched.quiet (overlayPoll_of_none (s := takeOp rest more s) hphase)
    | on => exact congrArg Fetched.quiet (overlayPoll_of_on (s := takeOp rest more s) hphase)
    | off => exact congrArg Fetched.quiet (overlayPoll_of_off (s := takeOp rest more s) hphase)
  case onCheck => exact congrArg Fetched.quiet (overlayOnCheck_of_on (s := takeOp rest more s) hon)
  case wait => exact congrArg Fetched.quiet (overlayOffCheck_of_not_due (s := takeOp rest more s) hwait)
  case again =>
    refine ⟨countCycle s.host.cycles, countCycle_val_of_lt_two hcycles, hquiet htodo ?_⟩
    exact congrArg Fetched.quiet (overlayOffCheck_of_lt_two (s := takeOp rest more s) hoff hreached hcycles)
  case last =>
    exact congrArg Fetched.quiet (overlayOffCheck_of_two_le (s := takeOp rest more s) hoff hreached hcycles)

end

/-! ### The moves of a flash (R166) -/

/-- What a step that sets `phase` to NONE nowhere can do to a flash, on the host's state before and after it. -/
inductive FlashMove (now : Ms) (h h' : HostState) : Prop
  | keeps (phase_eq : h'.phase = h.phase) (cycles_eq : h'.cycles = h.cycles)
  | starts (before : h.phase = .none) (after : h'.phase = .on) (deadline_eq : h'.deadline = now + 100#32)
      (cycles_eq : h'.cycles = 0)
  | turnsOff (before : h.phase = .on) (after : h'.phase = .off) (due : reached now h.deadline = true)
      (deadline_eq : h'.deadline = now + 100#32) (cycles_eq : h'.cycles = h.cycles)
  | turnsOn (before : h.phase = .off) (after : h'.phase = .on) (due : reached now h.deadline = true)
      (deadline_eq : h'.deadline = now + 100#32) (cycles_val : h'.cycles.val = h.cycles.val + 1)
      (below : h'.cycles.val < 3)
  | completes (before : h.phase = .off) (after : h'.phase = .off) (due : reached now h.deadline = true)
      (two_le : 2 ≤ h.cycles.val) (cycles_eq : h'.cycles = 3)

/-- What a step whose operation sets `phase` to NONE does to a flash. -/
structure EndsFlash (h h' : HostState) : Prop where
  pending : ∃ op more, h.todo = op :: more ∧ setsPhaseNone op = true
  phase_eq : h'.phase = .none
  cycles_eq : h'.cycles = h.cycles

section
variable {now : Ms} {h h' : HostState}

/-- A move of a flash is no matter of what the host has still to do. -/
theorem FlashMove.of_todo {ops : List HostOp} (m : FlashMove now { h with todo := ops } h') : FlashMove now h h' := by
  cases m with
  | keeps hphase hcycles => exact .keeps hphase hcycles
  | starts hbefore hafter hdeadline hcycles => exact .starts hbefore hafter hdeadline hcycles
  | turnsOff hbefore hafter hdue hdeadline hcycles => exact .turnsOff hbefore hafter hdue hdeadline hcycles
  | turnsOn hbefore hafter hdue hdeadline hcycles hbelow =>
    exact .turnsOn hbefore hafter hdue hdeadline hcycles hbelow
  | completes hbefore hafter hdue htwo hcycles => exact .completes hbefore hafter hdue htwo hcycles

theorem FlashMove.enters_on (m : FlashMove now h h') (hon : h'.phase = .on) (hne : h.phase ≠ .on) :
    h'.deadline = now + 100#32 ∧
      ((h.phase = .none ∧ h'.cycles = 0) ∨
        (h.phase = .off ∧ reached now h.deadline = true ∧ h'.cycles.val = h.cycles.val + 1 ∧ h'.cycles.val < 3)) := by
  cases m with
  | keeps hphase => exact absurd (hphase.symm.trans hon) hne
  | starts hbefore _ hdeadline hcycles => exact ⟨hdeadline, .inl ⟨hbefore, hcycles⟩⟩
  | turnsOff _ hafter => exact nomatch hafter.symm.trans hon
  | turnsOn hbefore _ hdue hdeadline hcycles hbelow => exact ⟨hdeadline, .inr ⟨hbefore, hdue, hcycles, hbelow⟩⟩
  | completes _ hafter => exact nomatch hafter.symm.trans hon

theorem FlashMove.enters_off (m : FlashMove now h h') (hoff : h'.phase = .off) (hne : h.phase ≠ .off) :
    h.phase = .on ∧ reached now h.deadline = true ∧ h'.deadline = now + 100#32 := by
  cases m with
  | keeps hphase => exact absurd (hphase.symm.trans hoff) hne
  | starts _ hafter => exact nomatch hafter.symm.trans hoff
  | turnsOff hbefore _ hdue hdeadline => exact ⟨hbefore, hdue, hdeadline⟩
  | turnsOn hbefore => exact absurd hbefore hne
  | completes hbefore => exact absurd hbefore hne

theorem FlashMove.completes_third (m : FlashMove now h h') (hthree : h'.cycles.val = 3) (hne : h.cycles.val ≠ 3) :
    h.phase = .off ∧ h'.phase = .off ∧ reached now h.deadline = true ∧ h.cycles.val = 2 := by
  cases m with
  | keeps _ hcycles => exact absurd (hcycles ▸ hthree) hne
  | starts _ _ _ hcycles => exact absurd (hcycles ▸ hthree) (by decide)
  | turnsOff _ _ _ _ hcycles => exact absurd (hcycles ▸ hthree) hne
  | turnsOn _ _ _ _ _ hbelow => omega
  | completes hbefore hafter hdue htwo => exact ⟨hbefore, hafter, hdue, by omega⟩

theorem FlashMove.stays_active (m : FlashMove now h h') (hne : h.phase ≠ .none) : h'.phase ≠ .none := by
  cases m with
  | keeps hphase => exact hphase ▸ hne
  | starts hbefore => exact absurd hbefore hne
  | turnsOff _ hafter => exact hafter ▸ nofun
  | turnsOn _ hafter => exact hafter ▸ nofun
  | completes _ hafter => exact hafter ▸ nofun

/-- By the order of the pending operations, `phase` is set to NONE with no flash at boot, or after the third cycle. -/
theorem EndsFlash.complete (e : EndsFlash h h') (horder : flashEndsInOrder h = true) (hne : h.phase ≠ .none) :
    h.phase = .off ∧ h.cycles.val = 3 := by
  obtain ⟨op, more, htodo, hop⟩ := e.pending
  obtain ⟨rfl, -⟩ | ⟨-, hboot, hend⟩ := flashEndsInOrder_next horder htodo
  · exact nomatch hop
  · unfold setsPhaseNone at hop
    split at hop
    case h_1 => exact absurd (hboot rfl) hne
    case h_2 => exact (flashComplete_iff h).1 (hend rfl)
    case h_3 => exact nomatch hop

end

/-! ### The move of each operation of the host -/

section
variable (s : State)

theorem flashMove_overlayStart : FlashMove s.now s.host (overlayStart s).host := by
  by_cases hnone : s.host.phase = .none
  · rw [overlayStart_of_none hnone]
    exact .starts hnone rfl rfl rfl
  · rw [overlayStart_of_active hnone]
    exact .keeps rfl rfl

theorem flashMove_overlayPoll : FlashMove s.now s.host (overlayPoll s).host := by
  unfold overlayPoll
  split <;> exact .keeps rfl rfl

theorem flashMove_overlayOnCheck : FlashMove s.now s.host (overlayOnCheck s).host := by
  by_cases hon : s.host.phase = .on
  · rw [overlayOnCheck_of_on hon]
    split
    case isTrue hdue => exact .turnsOff hon rfl hdue rfl rfl
    case isFalse => exact .keeps rfl rfl
  · rw [overlayOnCheck_of_not_on hon]
    exact .keeps rfl rfl

theorem flashMove_overlayOffCheck : FlashMove s.now s.host (overlayOffCheck s).host := by
  by_cases hoff : s.host.phase = .off
  case neg =>
    rw [overlayOffCheck_of_not_off hoff]
    exact .keeps rfl rfl
  cases hdue : reached s.now s.host.deadline with
  | false =>
    rw [overlayOffCheck_of_not_due hdue]
    exact .keeps rfl rfl
  | true =>
    obtain hcycles | hcycles := Nat.lt_or_ge s.host.cycles.val 2
    · have hcount := countCycle_val_of_lt_two hcycles
      rw [overlayOffCheck_of_lt_two hoff hdue hcycles]
      exact .turnsOn hoff rfl hdue rfl hcount (hcount.trans_lt (Nat.succ_lt_succ hcycles))
    · rw [overlayOffCheck_of_two_le hoff hdue hcycles]
      exact .completes hoff hoff hdue hcycles rfl

theorem flashMove_operateOrFlash (allowed : Bool) (op : Instr) (tone : Preset) :
    FlashMove s.now s.host (operateOrFlash allowed op tone s).host := by
  cases allowed <;> exact .keeps rfl rfl

/-- The Dispatcher asks for a flash by a pending `overlay.start()`; it writes no field of the overlay itself. -/
theorem flashMove_dispatchStep : FlashMove s.now s.host (dispatchStep s).host := by
  unfold dispatchStep
  split
  case h_1 => split <;> exact .keeps rfl rfl
  case h_2 => exact flashMove_operateOrFlash s _ _ _
  case h_3 => exact flashMove_operateOrFlash s _ _ _
  case h_4 => exact flashMove_operateOrFlash s _ _ _
  case h_5 => exact flashMove_operateOrFlash s _ _ _
  case h_6 => split <;> exact .keeps rfl rfl
  case h_7 => exact .keeps rfl rfl

theorem flashMove_hostOp {op : HostOp} (hop : setsPhaseNone op = false) :
    FlashMove s.now s.host (stateOf (hostOp op s)).host := by
  cases op with
  | setOwnState => exact nomatch hop
  | issue i => exact .keeps rfl rfl
  | enableTicks => exact .keeps rfl rfl
  | overlayStart => exact flashMove_overlayStart s
  | overlayPoll => exact flashMove_overlayPoll s
  | overlayOnCheck => exact flashMove_overlayOnCheck s
  | overlayOffCheck => exact flashMove_overlayOffCheck s
  | endFlash => exact nomatch hop
  | dispatch => exact flashMove_dispatchStep s
  | goto d => exact .keeps rfl rfl

theorem hostOp_of_setsPhaseNone {op : HostOp} (hop : setsPhaseNone op = true) :
    (stateOf (hostOp op s)).host.phase = .none ∧ (stateOf (hostOp op s)).host.cycles = s.host.cycles := by
  cases op with
  | setOwnState => exact ⟨rfl, rfl⟩
  | endFlash => exact ⟨rfl, rfl⟩
  | _ => exact nomatch hop

theorem flash_hostTurn :
    FlashMove s.now s.host (stateOf (hostTurn s)).host ∨ EndsFlash s.host (stateOf (hostTurn s)).host := by
  cases htodo : s.host.todo with
  | nil =>
    rw [hostTurn_of_nil htodo]
    exact .inl (.keeps rfl rfl)
  | cons op more =>
    rw [hostTurn_of_cons htodo]
    cases hop : setsPhaseNone op with
    | false => exact .inl (flashMove_hostOp (s.setHost { s.host with todo := more }) hop).of_todo
    | true =>
      obtain ⟨hphase, hcycles⟩ := hostOp_of_setsPhaseNone (s.setHost { s.host with todo := more }) hop
      exact .inr ⟨⟨op, more, htodo, hop⟩, hphase, hcycles⟩

end

/-! ### The move of each step -/

section
variable {s t : State}

theorem flash_mainAct (a : MainAct) (s : State) :
    FlashMove s.now s.host (stateOf (mainAct a s)).host ∨ EndsFlash s.host (stateOf (mainAct a s)).host := by
  cases a with
  | command w => exact .inl (.keeps rfl rfl)
  | host => exact flash_hostTurn s
  | suppressTicks => exact .inl (.keeps rfl rfl)
  | resumeTicks => exact .inl (.keeps rfl rfl)

theorem flashMove_fireTick (raw : Nibble) (s : State) :
    FlashMove s.now s.host (stateOf (fireTick raw s)).host := by
  unfold fireTick
  split <;> exact .keeps rfl rfl

theorem step_of_reset {rest : List Instant} (hdue : noTickDue s = true) (hinput : s.input = .reset :: rest) :
    step s = .next { State.reset with resets := s.resets + 1, input := rest } := by
  apply step_of_fetch_quiet
  rw [fetch_of_noTickDue hdue, nextInstant, hinput]
  rfl

/-- A deferred firing that is due goes before everything else, and it is a TICK. -/
theorem host_fetch_of_tickDue (hdue : noTickDue s = false) : (stateOf (fetch s)).host = s.host := by
  unfold fetch
  split
  case h_1 => rfl
  case h_2 he hh => simp [noTickDue, he, hh] at hdue
  case h_3 he => simp [noTickDue, he] at hdue

theorem flash_fetch (s : State) :
    FlashMove s.now s.host (stateOf (fetch s)).host ∨ EndsFlash s.host (stateOf (fetch s)).host ∨
      (noTickDue s = true ∧ ∃ rest, s.input = .reset :: rest) := by
  cases hdue : noTickDue s with
  | false =>
    rw [host_fetch_of_tickDue hdue]
    exact .inl (.keeps rfl rfl)
  | true =>
    obtain ⟨raw, more, -, -, hf⟩ | ⟨-, hf⟩ | ⟨rest, hinput, hf⟩ | ⟨rest, -, hf⟩ | ⟨a, rest, -, hf⟩ |
        ⟨raw, a, rest, -, hf⟩ := fetch_cases (rfl : fetch s = fetch s) <;> rw [hf]
    · exact .inl (.keeps rfl rfl)
    · exact .inl (.keeps rfl rfl)
    · exact .inr (.inr ⟨rfl, rest, hinput⟩)
    · exact .inl (.keeps rfl rfl)
    · exact (flash_mainAct a (s.setInput rest)).imp_right .inl
    · exact .inl (flashMove_fireTick raw (s.setInput (afterFiring a rest)))

/-- The inversion of `step` for the overlay: a command leaves the host as it was presented on it. -/
theorem flash_cases_of_step (h : step s = .next t) :
    FlashMove s.now s.host t.host ∨ EndsFlash s.host t.host ∨
      (noTickDue s = true ∧ ∃ rest, s.input = .reset :: rest ∧
        t = { State.reset with resets := s.resets + 1, input := rest }) := by
  have hhost : (stateOf (fetch s)).host = t.host := by
    obtain ⟨w, s', hf, hexec⟩ | hf := step_cases h
    · obtain ⟨-, hhost, -, -⟩ := (writes_of_exec hexec).outside_eq
      rw [hf, hhost, stateOf]
    · rw [hf, stateOf]
  obtain hmove | hend | ⟨hdue, rest, hinput⟩ := flash_fetch s
  · exact .inl (hhost ▸ hmove)
  · exact .inr (.inl (hhost ▸ hend))
  · rw [step_of_reset hdue hinput] at h
    injection h with ht
    exact .inr (.inr ⟨hdue, rest, hinput, ht.symm⟩)

end

/-- Settles O53: a move of the overlay keeps the order, an operation that sets `phase` to NONE leaves the count, and a
reset event leaves no flash. -/
theorem flashPhaseOrder : Obligations.FlashPhaseOrder := by
  intro s t hstep
  obtain hmove | hend | ⟨hdue, rest, hinput, rfl⟩ := flash_cases_of_step hstep
  · exact ⟨hmove.enters_on, hmove.enters_off, hmove.completes_third,
      fun _ hnone hne => absurd hnone (hmove.stays_active hne)⟩
  · exact ⟨fun hon => (nomatch hend.phase_eq.symm.trans hon), fun hoff => (nomatch hend.phase_eq.symm.trans hoff),
      fun hthree hne => absurd (hend.cycles_eq ▸ hthree) hne,
      fun hs _ hne => .inl (hend.complete hs.flashInOrder hne)⟩
  · exact ⟨nofun, nofun, nofun, fun _ _ _ => .inr ⟨hdue, rest, hinput, rfl⟩⟩

end Sys2Proof.Proofs.ErrorFlash
end

/-! The Dispatcher and the main loop of the reference host (spec/46_dispatcher_host.md R182 to R190): the step of a turn
that issues a command, and one equation for each row of the Dispatcher's table. -/
section
namespace Sys2Proof.Proofs.Dispatcher
open Sys2Proof Sys2Proof.Machine Sys2Proof.Proofs.ArrivalOrder Sys2Proof.Proofs.CommandWord
open Sys2Proof.Proofs.CounterGuard Sys2Proof.Proofs.ErrorFlash

/-! ### A turn that issues a command (R190) -/

/-- The word of an issued command reads back as that command, so the turn is a step of the command itself. -/
theorem step_of_issue {s u : State} {i : Instr} {rest : List Instant} (hdue : noTickDue s = true)
    (hinput : s.input = hostInstant :: rest) (hturn : hostTurn (s.setInput rest) = hostOp (.issue i) u) :
    step s = exec i u := by
  rw [step_of_fetch_command ((fetch_of_act hdue hinput).trans hturn), decode_encode]

/-- Settles O49: an empty list begins the main loop with its TONE_POLL, and a list that begins with an `issue` is taken
as it is. -/
theorem hostIterationAndIssue : Obligations.HostIterationAndIssue := fun _ _ _ _ hdue hinput =>
  ⟨fun hnil => step_of_issue hdue hinput (hostTurn_of_nil hnil),
    fun hcons => step_of_issue hdue hinput (hostTurn_of_cons hcons)⟩

/-! ### What a sample of the edges asks for (R182) -/

section
variable {e : Nibble}

theorem pickOperation_of_bit0 (h0 : e.getLsbD 0 = true) : pickOperation e = .incInt := if_pos h0

theorem pickOperation_of_bit1 (h0 : e.getLsbD 0 = false) (h1 : e.getLsbD 1 = true) : pickOperation e = .decInt := by
  simp only [pickOperation, h0, h1, Bool.false_eq_true, if_false, if_true]

theorem pickOperation_of_bit2 (h0 : e.getLsbD 0 = false) (h1 : e.getLsbD 1 = false) (h2 : e.getLsbD 2 = true) :
    pickOperation e = .incDec := by
  simp only [pickOperation, h0, h1, h2, Bool.false_eq_true, if_false, if_true]

theorem pickOperation_of_bit3 (h0 : e.getLsbD 0 = false) (h1 : e.getLsbD 1 = false) (h2 : e.getLsbD 2 = false)
    (h3 : e.getLsbD 3 = true) : pickOperation e = .decDec := by
  simp only [pickOperation, h0, h1, h2, h3, Bool.false_eq_true, if_false, if_true]

theorem pickOperation_zero : pickOperation 0b0000#4 = .idle := rfl

end

section
variable {s : State}

/-! ### The rows that wait for the overlay (R182, R187) -/

theorem goto_by_overlay (active inactive : DState) (s : State) :
    (if overlayActive s then goto active s else goto inactive s) =
      goto (if s.host.phase = .none then inactive else active) s := by
  by_cases h : s.host.phase = .none
  · have hoff : overlayActive s = false := decide_eq_false (not_not_intro h)
    rw [hoff, if_pos h]
    rfl
  · have hon : overlayActive s = true := decide_eq_true h
    rw [hon, if_neg h]
    rfl

theorem dispatchStep_of_idle (hd : s.host.dstate = .idle) :
    dispatchStep s = goto (if s.host.phase = .none then pickOperation s.edge else .idle) s := by
  simp only [dispatchStep, hd, goto_by_overlay, edgeO]

theorem dispatchStep_of_errorFlash (hd : s.host.dstate = .errorFlash) :
    dispatchStep s = goto (if s.host.phase = .none then .update else .errorFlash) s := by
  simp only [dispatchStep, hd, goto_by_overlay]

/-! ### The rows of the four operations (R183 to R186) -/

/-- What an operation state plans when its check passes. -/
def operationPlan (op : Instr) (tone : Preset) : List HostOp := [.issue op, .issue (presetInstr tone), .goto .update]

/-- What an operation state plans when its check fails. -/
def flashPlan : List HostOp := [.overlayStart, .goto .errorFlash]

theorem operateOrFlash_decide (p : Prop) [Decidable p] (op : Instr) (tone : Preset) (s : State) :
    operateOrFlash (decide p) op tone s = plan (if p then operationPlan op tone else flashPlan) s := by
  by_cases h : p
  · rw [decide_eq_true h, if_pos h]; rfl
  · rw [decide_eq_false h, if_neg h]; rfl

/-- The check of R185 and R186: both digits at one value forbid the operation. -/
theorem operateOrFlash_unless_both {n : Nat} (hn : n < 16) (op : Instr) (tone : Preset) (s : State) :
    operateOrFlash (!(idigO s == BitVec.ofNat 4 n && ddigO s == BitVec.ofNat 4 n)) op tone s =
      plan (if s.idig.val = n ∧ s.ddig.val = n then flashPlan else operationPlan op tone) s := by
  rw [idigO, ddigO, digitCode_beq hn, digitCode_beq hn, ← Bool.decide_and, ← decide_not, operateOrFlash_decide, ite_not]

theorem dispatchStep_of_incInt (hd : s.host.dstate = .incInt) :
    dispatchStep s = plan (if s.idig.val < 9 then operationPlan .incInt .inc else flashPlan) s := by
  simp only [dispatchStep, hd, operateOrFlash_decide, idigO, digitCode_lt_nine_iff]

theorem dispatchStep_of_decInt (hd : s.host.dstate = .decInt) :
    dispatchStep s = plan (if s.idig.val > 0 then operationPlan .decInt .dec else flashPlan) s := by
  simp only [dispatchStep, hd, operateOrFlash_decide, idigO, gt_iff_lt, zero_lt_digitCode_iff]

theorem dispatchStep_of_incDec (hd : s.host.dstate = .incDec) :
    dispatchStep s = plan (if s.idig.val = 9 ∧ s.ddig.val = 9 then flashPlan else operationPlan .incDec .inc) s := by
  simp only [dispatchStep, hd]
  exact operateOrFlash_unless_both (by decide) _ _ s

theorem dispatchStep_of_decDec (hd : s.host.dstate = .decDec) :
    dispatchStep s = plan (if s.idig.val = 0 ∧ s.ddig.val = 0 then flashPlan else operationPlan .decDec .dec) s := by
  simp only [dispatchStep, hd]
  exact operateOrFlash_unless_both (by decide) _ _ s

/-! ### The row S_UPDATE (R188) -/

theorem dispatchStep_of_update (hd : s.host.dstate = .update) :
    dispatchStep s = plan [.issue .render, .issue .edgeClr, .goto .idle] s := by
  simp only [dispatchStep, hd]

/-! ### What every row leaves unchanged -/

/-- A row writes `dstate` and puts operations before what is left to do, and nothing else. -/
theorem dispatchStep_eq_setHost (s : State) :
    ∃ d ops, dispatchStep s = s.setHost { s.host with dstate := d, todo := ops ++ s.host.todo } := by
  cases hd : s.host.dstate with
  | idle => exact ⟨_, [], dispatchStep_of_idle hd⟩
  | incInt => exact ⟨s.host.dstate, _, dispatchStep_of_incInt hd⟩
  | decInt => exact ⟨s.host.dstate, _, dispatchStep_of_decInt hd⟩
  | incDec => exact ⟨s.host.dstate, _, dispatchStep_of_incDec hd⟩
  | decDec => exact ⟨s.host.dstate, _, dispatchStep_of_decDec hd⟩
  | errorFlash => exact ⟨_, [], dispatchStep_of_errorFlash hd⟩
  | update => exact ⟨s.host.dstate, _, dispatchStep_of_update hd⟩

/-- A row that plans operations keeps `dstate`; the next one is assigned by the last operation of the plan. -/
theorem host_of_plan {t : State} {d : DState} {ops : List HostOp} (h : t = plan ops s) (hd : s.host.dstate = d) :
    t.host.dstate = d ∧ t.host.todo = ops ++ s.host.todo := by
  rw [h]
  exact ⟨hd, rfl⟩

theorem host_of_goto {t : State} {d : DState} (h : t = goto d s) :
    t.host.todo = s.host.todo ∧ t.host.dstate = d := by
  rw [h]
  exact ⟨rfl, rfl⟩

end

/-- Settles O50: the step is `dispatchStep` on the state the turn has taken the operation from, and each clause is read
off the equation of its row. -/
theorem dispatcherTransitionTable : Obligations.DispatcherTransitionTable := by
  intro s more rest hdue hinput
  refine ⟨fun htodo => ?_, fun d htodo => step_of_quiet_op hdue hinput htodo rfl⟩
  have hstep := step_of_quiet_op hdue hinput htodo rfl
  obtain ⟨d, ops, hframe⟩ := dispatchStep_eq_setHost (takeOp rest more s)
  have htaken {d : DState} (hd : s.host.dstate = d) : (takeOp rest more s).host.dstate = d := hd
  refine ⟨dispatchStep (takeOp rest more s), hstep, ?block, ?phase, ?deadline, ?cycles, fun hd => ?idle,
    fun hd => host_of_plan (dispatchStep_of_incInt (htaken hd)) hd,
    fun hd => host_of_plan (dispatchStep_of_decInt (htaken hd)) hd,
    fun hd => host_of_plan (dispatchStep_of_incDec (htaken hd)) hd,
    fun hd => host_of_plan (dispatchStep_of_decDec (htaken hd)) hd,
    fun hd => host_of_goto (dispatchStep_of_errorFlash (htaken hd)),
    fun hd => host_of_plan (dispatchStep_of_update (htaken hd)) hd⟩
  case block | phase | deadline | cycles => rw [hframe]; rfl
  case idle =>
    obtain ⟨hleft, hnext⟩ := host_of_goto (dispatchStep_of_idle (htaken hd))
    refine ⟨hleft, fun hactive => hnext.trans (if_neg hactive), fun hnone => ?_⟩
    rw [hnext.trans (if_pos hnone)]
    exact ⟨pickOperation_of_bit0, pickOperation_of_bit1, pickOperation_of_bit2, pickOperation_of_bit3,
      fun hzero => (congrArg pickOperation hzero).trans pickOperation_zero⟩

end Sys2Proof.Proofs.Dispatcher
end

/-! The display encoder (spec/47_display_encoder.md R200 to R203, 70_reset_and_hazards.md R255): each display command is
one write of two bytes, and no other command writes any. -/
section
namespace Sys2Proof.Proofs.DisplayEncoder
open Sys2Proof Sys2Proof.Machine Sys2Proof.Proofs.CommandWrites Sys2Proof.Proofs.EdgeDetector

/-! ### A write of both bytes -/

section
variable (b0 b1 c0 c1 : Byte) (s : State)

@[simp] theorem withDisplay_idig : (withDisplay b0 b1 s).idig = s.idig := rfl

@[simp] theorem withDisplay_ddig : (withDisplay b0 b1 s).ddig = s.ddig := rfl

@[simp] theorem withDisplay_resets : (withDisplay b0 b1 s).resets = s.resets := rfl

/-- MemRead after the write, at any address: those that do not exist fault as before. -/
theorem memRead_withDisplay (a : Nat) :
    memRead .disp a (withDisplay b0 b1 s) =
      if a = 1 then .ok b1 else if a = 0 then .ok b0 else memRead .disp a s := by
  match a with
  | 0 => exact congrArg Except.ok (withDisplay_read b0 b1 s 0)
  | 1 => exact congrArg Except.ok (withDisplay_read b0 b1 s 1)
  | a + 2 => rfl

theorem dispO_withDisplay : dispO (withDisplay b0 b1 s) = (b0, b1) :=
  congrArg₂ Prod.mk (withDisplay_read b0 b1 s 0) (withDisplay_read b0 b1 s 1)

/-- The write in the form of the three results: both bytes, every other address, the port and the frame. -/
theorem withDisplay_result :
    memRead .disp 0 (withDisplay b0 b1 s) = .ok b0 ∧ memRead .disp 1 (withDisplay b0 b1 s) = .ok b1 ∧
    (∀ a, a ≠ 0 → a ≠ 1 → memRead .disp a (withDisplay b0 b1 s) = memRead .disp a s) ∧
    dispO (withDisplay b0 b1 s) = (b0, b1) ∧
    withDisplay b0 b1 s = { s with disp := (withDisplay b0 b1 s).disp } := by
  refine ⟨memRead_withDisplay b0 b1 s 0, memRead_withDisplay b0 b1 s 1, fun a h0 h1 => ?_,
    dispO_withDisplay b0 b1 s, rfl⟩
  rw [memRead_withDisplay, if_neg h1, if_neg h0]

/-- The last write wins, as plain data too: both memories are canonical and read alike. -/
theorem withDisplay_withDisplay (hs : Memory.wf s.resets s.disp = true) :
    withDisplay b0 b1 (withDisplay c0 c1 s) = withDisplay b0 b1 s := by
  have hmem : (withDisplay b0 b1 (withDisplay c0 c1 s)).disp = (withDisplay b0 b1 s).disp := by
    refine Memory.eq_of_read (n := s.resets) (withDisplay_wf (s := withDisplay c0 c1 s) (withDisplay_wf hs))
      (withDisplay_wf hs) fun a => ?_
    have hsecond := withDisplay_read b0 b1 (withDisplay c0 c1 s) a
    rw [withDisplay_resets, withDisplay_read] at hsecond
    rw [hsecond, withDisplay_read]
    split_ifs <;> rfl
  exact congrArg s.setDisp hmem

end

/-! ### The three commands -/

theorem exec_render (s : State) :
    exec .render s = .next (withDisplay (Config.segLut s.idig) (Config.segLut s.ddig) s) := execRender_eq s

theorem exec_dispOverlay (s : State) :
    exec .dispOverlay s = .next (withDisplay Config.segOverlay Config.segOverlay s) := execDispOverlay_eq s

theorem exec_dispBlank (s : State) :
    exec .dispBlank s = .next (withDisplay Config.segBlank Config.segBlank s) := execDispBlank_eq s

/-- Settles O32: opcode 8 reads no operand bit, and RENDER writes the patterns of the two digits. -/
theorem renderResult : Obligations.RenderResult :=
  ⟨fun _ => decode_of_opcode, fun s => ⟨_, exec_render s, withDisplay_result _ _ s⟩⟩

/-- Settles O33: opcode 9 reads no operand bit, and DISP_OVERLAY writes the glyph twice. -/
theorem dispOverlayResult : Obligations.DispOverlayResult :=
  ⟨fun _ => decode_of_opcode, fun s => ⟨_, exec_dispOverlay s, withDisplay_result _ _ s⟩⟩

/-- Settles O34: opcode 0xA reads no operand bit, and DISP_BLANK writes the blank pattern twice. -/
theorem dispBlankResult : Obligations.DispBlankResult :=
  ⟨fun _ => decode_of_opcode, fun s => ⟨_, exec_dispBlank s, withDisplay_result _ _ s⟩⟩

/-! ### Idempotence -/

/-- The bytes a display command writes are a function of the two digits. -/
theorem exec_display_of_digits {i : Instr} (hi : i = .render ∨ i = .dispOverlay ∨ i = .dispBlank) (d e : Digit) :
    ∃ b0 b1, ∀ u : State, u.idig = d → u.ddig = e → exec i u = .next (withDisplay b0 b1 u) := by
  rcases hi with rfl | rfl | rfl
  · exact ⟨_, _, fun u hd he => hd ▸ he ▸ exec_render u⟩
  · exact ⟨_, _, fun u _ _ => exec_dispOverlay u⟩
  · exact ⟨_, _, fun u _ _ => exec_dispBlank u⟩

/-- Settles O36: the command leaves the digits, so the second time it writes the same two bytes over themselves. -/
theorem displayCommandsAreIdempotent : Obligations.DisplayCommandsAreIdempotent := by
  intro i s t hi hs h
  obtain ⟨b0, b1, hwrite⟩ := exec_display_of_digits hi s.idig s.ddig
  rw [hwrite s rfl rfl] at h
  injection h with h
  subst h
  rw [hwrite _ (withDisplay_idig b0 b1 s) (withDisplay_ddig b0 b1 s), withDisplay_withDisplay b0 b1 b0 b1 s hs]

/-! ### The other commands (70_reset_and_hazards.md R255) -/

/-- What `DISP` reads as depends on its memory and on the count of resets that selects its free bytes. -/
theorem sameDisplay_of_disp_eq {s t : State} (hdisp : t.disp = s.disp) (hresets : t.resets = s.resets) :
    SameDisplay s t := by
  intro a
  rw [memRead_disp, memRead_disp, hdisp, hresets]

theorem dispO_of_disp_eq {s t : State} (hdisp : t.disp = s.disp) (hresets : t.resets = s.resets) :
    dispO t = dispO s := by
  rw [dispO, dispO, hdisp, hresets]

/-- Settles O35: only a display command writes the memory, and no command the count of resets. -/
theorem onlyDisplayCommandsChangeTheDisplay : Obligations.OnlyDisplayCommandsChangeTheDisplay := by
  intro i s t h hr ho hb
  have hw := writes_of_exec h
  have hdisp := hw.disp_eq hr ho hb
  obtain ⟨hresets, -, -, -⟩ := hw.outside_eq
  exact ⟨sameDisplay_of_disp_eq hdisp hresets, dispO_of_disp_eq hdisp hresets⟩

end Sys2Proof.Proofs.DisplayEncoder
end

/-! What can stop a step (spec/60_exceptions.md R220 to R222): a command completes exactly where it is one of the
twelve, and a reserved opcode is refused with itself; nothing faults. -/
section
namespace Sys2Proof.Proofs.Exceptions
open Sys2Proof Sys2Proof.Machine Sys2Proof.Proofs.ArrivalOrder Sys2Proof.Proofs.CommandWord

/-! ### Commands -/

/-- R220: every operand value has a result in every state. -/
theorem exec_completes {i : Instr} (h : i.wf = true) (s : State) : ∃ t, exec i s = .next t := by
  cases i with
  | reserved3 | reservedB | reservedE | reservedF => exact nomatch h
  | _ => exact ⟨_, (exec_next_iff _ _ _).2 rfl⟩

/-- R221: the refusal records the opcode that raised it. -/
theorem exec_refuses {i : Instr} (h : i.wf = false) (s : State) :
    exec i s = .refused (.illegalCommand i.opcode) := by
  cases i with
  | reserved3 | reservedB | reservedE | reservedF => rfl
  | _ => exact nomatch h

/-- Settles O37: the well-formed commands are the twelve. -/
theorem everyCommandCompletes : Obligations.EveryCommandCompletes := fun _ s h => exec_completes h s

theorem exec_ne_fault (i : Instr) (s : State) (f : Fault) : exec i s ≠ .fault f := by
  intro h
  cases hwf : i.wf with
  | true =>
    obtain ⟨t, ht⟩ := exec_completes hwf s
    exact nomatch ht.symm.trans h
  | false => exact nomatch (exec_refuses hwf s).symm.trans h

theorem reserved_of_exec_refused {i : Instr} {s : State} {r : Refusal} (h : exec i s = .refused r) :
    i.wf = false ∧ r = .illegalCommand i.opcode := by
  cases hwf : i.wf with
  | true =>
    obtain ⟨t, ht⟩ := exec_completes hwf s
    exact nomatch ht.symm.trans h
  | false =>
    rw [exec_refuses hwf s] at h
    injection h with h
    exact ⟨rfl, h.symm⟩

/-! ### Command words -/

/-- The opcode field is one of the four that select no command (30_encoding.md R76). -/
def Reserved (op : Opcode) : Prop := op = 0x3#4 ∨ op = 0xB#4 ∨ op = 0xE#4 ∨ op = 0xF#4

theorem wf_decode_eq_false_iff (w : CmdWord) : (decode w).wf = false ↔ Reserved (opcodeOf w) := by
  rw [wf_eq_false_iff, opcode_decode, Reserved]

/-- Settles O7: the four rows, and a word whose opcode field selects one of them. -/
theorem reservedOpcodesAreRefused : Obligations.ReservedOpcodesAreRefused := by
  refine ⟨fun s => ⟨exec_refuses rfl s, exec_refuses rfl s, exec_refuses rfl s, exec_refuses rfl s⟩,
    fun op arg s hop => ?_⟩
  have hwf : (decode (op ++ arg)).wf = false := by
    rw [wf_decode_eq_false_iff, opcodeOf_append]
    exact hop
  rw [exec_refuses hwf, opcode_decode, opcodeOf_append]

/-! ### Steps -/

/-- An event that presents no command completes, so a step that does not is the command `fetch` presents. -/
theorem command_of_step {s : State} {o : Outcome} (h : step s = o) (hnext : ∀ t, o ≠ .next t) :
    ∃ w s', fetch s = .command w s' ∧ exec (decode w) s' = o := by
  cases hf : fetch s with
  | command w s' => exact ⟨w, s', rfl, (step_of_fetch_command hf).symm.trans h⟩
  | quiet s' => exact absurd (h.symm.trans (step_of_fetch_quiet hf)) (hnext s')

/-- Settles O38: what stops a step stops the command it runs. -/
theorem stepStopsOnlyOnAReservedOpcode : Obligations.StepStopsOnlyOnAReservedOpcode := by
  refine ⟨fun s f h => ?fault, fun s r h => ?refusal⟩
  case fault =>
    obtain ⟨w, s', -, hexec⟩ := command_of_step h nofun
    exact exec_ne_fault _ _ _ hexec
  case refusal =>
    obtain ⟨w, s', hf, hexec⟩ := command_of_step h nofun
    obtain ⟨hwf, hr⟩ := reserved_of_exec_refused hexec
    rw [opcode_decode] at hr
    exact ⟨w, s', hf, hr, (wf_decode_eq_false_iff w).1 hwf⟩

end Sys2Proof.Proofs.Exceptions
end

/-! Reset, boot and the hazards (spec/70_reset_and_hazards.md R240 to R251): the reset event, the three turns of the boot
sequence, the carries of a guarded host, and a piecewise read of `now_o`. -/
section
namespace Sys2Proof.Proofs.ResetAndHazards
open Sys2Proof Sys2Proof.Machine Sys2Proof.Proofs.ArrivalOrder Sys2Proof.Proofs.Counter Sys2Proof.Proofs.CounterGuard
open Sys2Proof.Proofs.ErrorFlash Sys2Proof.Proofs.Dispatcher Sys2Proof.Proofs.DisplayEncoder
open Sys2Proof.Proofs.Debounce (eq_afterTick_of_exec)

/-- Settles O46: with no deferred firing due, the reset event is what `fetch` presents. -/
theorem resetEventInstallsTheResetValues : Obligations.ResetEventInstallsTheResetValues :=
  fun _ _ => step_of_reset

/-- A turn whose operation issues a command is a step of that command, on the state the operation is taken from. -/
theorem step_of_issue_op {s : State} {i : Instr} {more : List HostOp} {rest : List Instant}
    (hdue : noTickDue s = true) (hinput : s.input = hostInstant :: rest) (htodo : s.host.todo = .issue i :: more) :
    step s = exec i (takeOp rest more s) :=
  step_of_issue hdue hinput (hostTurn_of_cons (s := s.setInput rest) htodo)

/-! ### Boot (R243) -/

/-- `s` with boot step 1 behind it: the host's own state is set, and `todo` and `input` are what is left. -/
def booting (todo : List HostOp) (input : List Instant) (s : State) : State :=
  { s with input := input, host := { s.host with phase := .none, dstate := .idle, todo := todo } }

/-- RENDER in the boot sequence shows the digits it began with. -/
def renderBooting (todo : List HostOp) (input : List Instant) (s : State) : State :=
  withDisplay (Config.segLut s.idig) (Config.segLut s.ddig) (booting todo input s)

section
variable {s : State} {rest : List Instant}

/-- Boot step 1. -/
theorem step_setOwnState {more : List HostOp} (hdue : noTickDue s = true) (hinput : s.input = hostInstant :: rest)
    (htodo : s.host.todo = .setOwnState :: more) : step s = .next (booting more rest s) :=
  step_of_quiet_op hdue hinput htodo rfl

/-- Boot step 2. -/
theorem step_render_booting {more : List HostOp} (hoff : s.ticks.enabled = false) :
    step (booting (.issue .render :: more) (hostInstant :: rest) s) = .next (renderBooting more rest s) :=
  (step_of_issue_op (s := booting _ _ s) (noTickDue_of_suppressed hoff) rfl rfl).trans
    (exec_render (booting more rest s))

/-- Boot step 3. -/
theorem step_enableTicks_booting {more : List HostOp} (hoff : s.ticks.enabled = false) :
    step (renderBooting (.enableTicks :: more) (hostInstant :: rest) s) =
      .next (enableTicks true (renderBooting more rest s)) :=
  step_of_quiet_op (noTickDue_of_suppressed hoff) rfl rfl rfl

end

/-- Settles O54: the tick source stays off until the third turn, so no deferred firing comes between the turns. -/
theorem bootSequenceResult : Obligations.BootSequenceResult := by
  intro s rest htodo hoff hinput
  have hdisp : dispO (enableTicks true (renderBooting [] rest s)) = (Config.segLut s.idig, Config.segLut s.ddig) :=
    dispO_withDisplay _ _ (booting [] rest s)
  exact ⟨_, _, _, step_setOwnState (noTickDue_of_suppressed hoff) hinput htodo, step_render_booting hoff,
    step_enableTicks_booting hoff, rfl, rfl, rfl, rfl, hdisp, rfl, rfl, rfl⟩

/-! ### Carries (R250, R125) -/

section
variable {s : State}

theorem counterValue_takeOp (rest : List Instant) (more : List HostOp) (s : State) :
    counterValue (takeOp rest more s) = counterValue s := rfl

theorem preChecked_of_todo {op : HostOp} {more : List HostOp} (hs : hostGuarded s = true)
    (htodo : s.host.todo = op :: more) : preChecked s op = true := by
  rw [hostGuarded_of_cons htodo, Bool.and_eq_true, Bool.and_eq_true] at hs
  obtain ⟨-, hchecked, -⟩ := hs
  exact hchecked

/-- The check before INC_DEC rules out the value 99, the one with both digits 9. -/
theorem counterValue_lt_of_preChecked (h : preChecked s (.issue .incDec) = true) : counterValue s < 99 := by
  have hdigits : ¬(s.idig.val = 9 ∧ s.ddig.val = 9) := by simpa [preChecked, ← not_and_or] using h
  have hi := s.idig.isLt
  have hd := s.ddig.isLt
  unfold counterValue
  omega

/-- The check before DEC_DEC rules out the value 0, the one with both digits 0. -/
theorem counterValue_pos_of_preChecked (h : preChecked s (.issue .decDec) = true) : 0 < counterValue s := by
  have hdigits : ¬(s.idig.val = 0 ∧ s.ddig.val = 0) := by simpa [preChecked, ← not_and_or] using h
  unfold counterValue
  omega

end

/-- Settles O58: the pre-check keeps the value off the boundary, and off it the command counts by 1. -/
theorem guardedHostNeverLosesACarry : Obligations.GuardedHostNeverLosesACarry := by
  intro s t more rest hs hdue hinput h
  refine ⟨fun htodo => ?up, fun htodo => ?down⟩
  case up =>
    have hbelow : counterValue s < 99 := counterValue_lt_of_preChecked (preChecked_of_todo hs htodo)
    obtain ⟨u, hexec, hvalue⟩ := exec_incDec_counterValue (takeOp rest more s)
    rw [step_of_issue_op hdue hinput htodo, hexec] at h
    injection h with h
    rw [← h, hvalue, counterValue_takeOp, if_pos hbelow]
  case down =>
    have habove : counterValue s > 0 := counterValue_pos_of_preChecked (preChecked_of_todo hs htodo)
    obtain ⟨u, hexec, hvalue⟩ := exec_decDec_counterValue (takeOp rest more s)
    rw [step_of_issue_op hdue hinput htodo, hexec] at h
    injection h with h
    rw [← h, hvalue, counterValue_takeOp, if_pos habove]
    exact Nat.sub_add_cancel habove

/-! ### A piecewise read of `now_o` (R251) -/

/-- Adjacent pieces join to the bits they cover, and the four cover all 32. -/
theorem joinPieces_nowPiece (s : State) :
    joinPieces (nowPiece 3 s) (nowPiece 2 s) (nowPiece 1 s) (nowPiece 0 s) = nowO s := by
  have hupper : nowPiece 3 s ++ nowPiece 2 s = (nowO s).extractLsb' 16 16 :=
    BitVec.extractLsb'_append_extractLsb'_eq_extractLsb' rfl
  have hmiddle : (nowO s).extractLsb' 16 16 ++ nowPiece 1 s = (nowO s).extractLsb' 8 24 :=
    BitVec.extractLsb'_append_extractLsb'_eq_extractLsb' rfl
  have hall : (nowO s).extractLsb' 8 24 ++ nowPiece 0 s = (nowO s).extractLsb' 0 32 :=
    BitVec.extractLsb'_append_extractLsb'_eq_extractLsb' rfl
  rw [joinPieces, hupper, hmiddle, hall, BitVec.extractLsb'_eq_self]

theorem nowPiece_of_now {s : State} {v : Ms} (h : s.now = v) (j : Fin 4) :
    nowPiece j s = v.extractLsb' (8 * j.val) 8 := by
  rw [nowPiece, nowO, h]

/-- Settles O59: from 250 = 0x000000FA to 260 = 0x00000104 the TICK carries into piece 1. -/
theorem piecewiseReadOfNowCanTear : Obligations.PiecewiseReadOfNowCanTear := by
  refine ⟨joinPieces_nowPiece, fun s t raw hs h => ?_⟩
  have ht : t.now = 260#32 := by
    rw [eq_afterTick_of_exec h, afterTick_now, hs]
    rfl
  simp only [nowPiece_of_now hs, nowPiece_of_now ht]
  exact ⟨rfl, rfl⟩

end Sys2Proof.Proofs.ResetAndHazards
end
